-- ==== Sys2Proof/Word.lean ====
section
/-! DEFINITION. The word and byte types (00_scope.md rule R6): a register, an immediate and an address are
32-bit patterns, a memory cell is 8 bits. Nothing else stands here: the byte-order and bit-field helpers a repair
could have to mend are in Decode.lean and Machine/Ops.lean. -/

namespace Sys2Proof

/-- A 32-bit pattern (`XLEN`, `ILEN` and `PCLEN` of 00_scope.md rule R5). -/
abbrev Word := BitVec 32

/-- One byte of either memory (20_memory.md rule R30). -/
abbrev Byte := BitVec 8

end Sys2Proof
end

