-- ==== Sys2Proof/Config.lean ====
section
/-! DEFINITION. What the design fixes (00_scope.md rule R5). The core has no free value: no instruction of the spec
leaves a result undefined, and the two open parameters of the spec (`IMEM_CAPACITY`, the bytes beyond `VALID_LENGTH`)
are launch inputs held in State, over which every statement about all states quantifies. -/

namespace Sys2Proof

/-- `DMEM_CAPACITY`, the bytes of data memory (00_scope.md rule R5). -/
def Config.dmemCapacity : Nat := 4096

/-- The largest `IMEM_CAPACITY` the spec allows (00_scope.md rule R5, 92_eei_decisions.md D4). -/
def Config.imemCapacityMax : Nat := 4294967296

end Sys2Proof
end

