-- ==== Sys2Proof/Syntax.lean ====
section
/-! DEFINITION. The eleven instructions of the core, one constructor for each row of spec/opcode_table.json and in its
order, operands in the assembler's order (30_encoding.md rule R68). An immediate is the DECODED 32-bit value, as the
decoder delivers it (30_encoding.md rules R53 to R57); WellFormed.lean says which values an encoding can hold
(DESIGN CHOICE, safe, log entry 16). The words outside the table are no constructors here: they are the decoder's
other answers (Decode.lean, `OtherWord`; log entry 17). -/

namespace Sys2Proof

/-- A 5-bit register index: every encodable index names a register (10_state.md rule R10). -/
abbrev RegIdx := BitVec 5

/-- The instruction set (00_scope.md rule R1, 30_encoding.md rule R64). -/
inductive Instr where
  /-- LUI rd, imm (41_upper_immediate.md rule R100); `imm` is already shifted. -/
  | lui (rd : RegIdx) (imm : Word)
  /-- JAL rd, offset (42_control_transfer.md rule R105); `imm` is the byte offset. -/
  | jal (rd : RegIdx) (imm : Word)
  /-- BEQ rs1, rs2, offset (42_control_transfer.md rule R106). -/
  | beq (rs1 rs2 : RegIdx) (imm : Word)
  /-- LB rd, imm(rs1) (43_loads_stores.md rule R117). -/
  | lb (rd rs1 : RegIdx) (imm : Word)
  /-- LW rd, imm(rs1) (43_loads_stores.md rule R118). -/
  | lw (rd rs1 : RegIdx) (imm : Word)
  /-- SB rs2, imm(rs1) (43_loads_stores.md rule R119). -/
  | sb (rs2 rs1 : RegIdx) (imm : Word)
  /-- SW rs2, imm(rs1) (43_loads_stores.md rule R120). -/
  | sw (rs2 rs1 : RegIdx) (imm : Word)
  /-- ADD rd, rs1, rs2 (44_integer_alu.md rule R130). -/
  | add (rd rs1 rs2 : RegIdx)
  /-- XOR rd, rs1, rs2 (44_integer_alu.md rule R131). -/
  | xor (rd rs1 rs2 : RegIdx)
  /-- ORI rd, rs1, imm (44_integer_alu.md rule R132). -/
  | ori (rd rs1 : RegIdx) (imm : Word)
  /-- SRAI rd, rs1, shamt (44_integer_alu.md rule R133). -/
  | srai (rd rs1 : RegIdx) (shamt : BitVec 5)
  deriving DecidableEq, Repr

end Sys2Proof
end

