-- ==== Sys2Proof/Decode.lean ====
section
/-! DEFINITION. The decoder block (30_encoding.md rules R50 to R66), the ALU control lookup that completes the
selection (40_cycle_and_alu_control.md rules R84, R86, R87), the byte order of an instruction word (20_memory.md rule
R35), and, after them, the encoder written from the same tables (rules R63, R64). The decoder is total: a word that
is none of the eleven instructions gets one of `OtherWord`'s names, never a neighbour's meaning. -/

namespace Sys2Proof

/-- The instruction formats (30_encoding.md rule R52). -/
inductive Format where
  | u | j | b | s | i | r | unknown
  deriving DecidableEq, Repr

/-- The class tag the ALU control receives (40_cycle_and_alu_control.md rule R86). -/
inductive AluClass where
  | rClass | iClass | none
  deriving DecidableEq, Repr

/-- The operation the ALU control selects (40_cycle_and_alu_control.md rule R87). -/
inductive AluOperation where
  | add | xor | ori | srai | nop
  deriving DecidableEq, Repr

/-- The decoder's output record, the DecodedInstruction (30_encoding.md rule R62), with the format tag. -/
structure Fields where
  opcode : BitVec 7
  rd : RegIdx
  funct3 : BitVec 3
  rs1 : RegIdx
  rs2 : RegIdx
  funct7 : BitVec 7
  imm : Word
  format : Format
  deriving DecidableEq, Repr

/-- A word that is none of the eleven instructions, by the class of 30_encoding.md rule R66 it falls in. -/
inductive OtherWord where
  /-- Class 1: the opcode is none of the seven. -/
  | unknownOpcode
  /-- Classes 2 and 3: an ALU opcode whose functs the ALU control does not match (44_integer_alu.md rules R134, R135). -/
  | unmatchedAlu
  /-- Class 4: a branch other than BEQ (42_control_transfer.md rule R107). -/
  | otherBranch
  /-- Class 5: a load of another width (43_loads_stores.md rule R121). -/
  | otherLoad (rs1 : RegIdx) (imm : Word)
  /-- Class 5: a store of another width (43_loads_stores.md rule R122). -/
  | otherStore (rs1 : RegIdx) (imm : Word)
  deriving DecidableEq, Repr

/-- What a word is: one of the eleven instructions, or another word by name. -/
inductive Decoded where
  | instr (i : Instr)
  | other (o : OtherWord)
  deriving DecidableEq, Repr

/-- Four bytes as a word, the byte at the lowest address in bits 7:0 (20_memory.md rules R34, R35). -/
def wordOfBytes (b0 b1 b2 b3 : Byte) : Word := b3 ++ b2 ++ b1 ++ b0

/-- Byte `k` of a word in little-endian order (20_memory.md rule R32). -/
def byteOfWord (v : Word) (k : Nat) : Byte := v.extractLsb' (8 * k) 8

/-- The format mux, on the opcode alone (30_encoding.md rule R52). -/
def formatOf (opcode : BitVec 7) : Format :=
  if opcode = 0x37#7 then .u
  else if opcode = 0x6F#7 then .j
  else if opcode = 0x63#7 then .b
  else if opcode = 0x23#7 then .s
  else if opcode = 0x03#7 then .i
  else if opcode = 0x13#7 then .i
  else if opcode = 0x33#7 then .r
  else .unknown

/-- U-type immediate (30_encoding.md rule R53). -/
def immU (w : Word) : Word := w.extractLsb' 12 20 ++ 0#12

/-- The 21 bits of the J-type immediate, in their final positions (30_encoding.md rule R54; 90_conflicts.md C3: no
further shift). -/
def bitsJ (w : Word) : BitVec 21 :=
  w.extractLsb' 31 1 ++ w.extractLsb' 12 8 ++ w.extractLsb' 20 1 ++ w.extractLsb' 21 10 ++ 0#1

/-- J-type immediate (30_encoding.md rule R54). -/
def immJ (w : Word) : Word := (bitsJ w).signExtend 32

/-- The 13 bits of the B-type immediate, in their final positions (30_encoding.md rule R55). -/
def bitsB (w : Word) : BitVec 13 :=
  w.extractLsb' 31 1 ++ w.extractLsb' 7 1 ++ w.extractLsb' 25 6 ++ w.extractLsb' 8 4 ++ 0#1

/-- B-type immediate (30_encoding.md rule R55). -/
def immB (w : Word) : Word := (bitsB w).signExtend 32

/-- The 12 bits of the S-type immediate (30_encoding.md rule R56). -/
def bitsS (w : Word) : BitVec 12 := w.extractLsb' 25 7 ++ w.extractLsb' 7 5

/-- S-type immediate (30_encoding.md rule R56). -/
def immS (w : Word) : Word := (bitsS w).signExtend 32

/-- I-type immediate (30_encoding.md rule R57). -/
def immI (w : Word) : Word := (w.extractLsb' 20 12).signExtend 32

/-- The immediate the format selects; zero for R and for an unknown opcode (30_encoding.md rules R58, R59). -/
def immOf (f : Format) (w : Word) : Word :=
  match f with
  | .u => immU w
  | .j => immJ w
  | .b => immB w
  | .s => immS w
  | .i => immI w
  | .r => 0
  | .unknown => 0

/-- The decoder's record of a word (30_encoding.md rules R51, R61, R62). -/
def fieldsOf (w : Word) : Fields where
  opcode := w.extractLsb' 0 7
  rd := w.extractLsb' 7 5
  funct3 := w.extractLsb' 12 3
  rs1 := w.extractLsb' 15 5
  rs2 := w.extractLsb' 20 5
  funct7 := w.extractLsb' 25 7
  imm := immOf (formatOf (w.extractLsb' 0 7)) w
  format := formatOf (w.extractLsb' 0 7)

/-- The class tag of an opcode (40_cycle_and_alu_control.md rule R86). -/
def aluClassOf (opcode : BitVec 7) : AluClass :=
  if opcode = 0x33#7 then .rClass
  else if opcode = 0x13#7 then .iClass
  else .none

/-- The ALU control lookup (40_cycle_and_alu_control.md rule R87; 90_conflicts.md C1: no ADDI, no XORI). -/
def aluControl (c : AluClass) (funct3 : BitVec 3) (funct7 : BitVec 7) : AluOperation :=
  match c with
  | .rClass =>
    if funct3 = 0#3 ∧ funct7 = 0x00#7 then .add
    else if funct3 = 4#3 ∧ funct7 = 0x00#7 then .xor
    else .nop
  | .iClass =>
    if funct3 = 6#3 then .ori
    else if funct3 = 5#3 ∧ funct7 = 0x20#7 then .srai
    else .nop
  | .none => .nop

/-- The ALU instruction a record names, by the ALU control's selection (rules R84, R87; SRAI's amount is bits 4:0 of
the immediate, 44_integer_alu.md rule R133). -/
def selectAlu (f : Fields) : Decoded :=
  match aluControl (aluClassOf f.opcode) f.funct3 f.funct7 with
  | .add => .instr (.add f.rd f.rs1 f.rs2)
  | .xor => .instr (.xor f.rd f.rs1 f.rs2)
  | .ori => .instr (.ori f.rd f.rs1 f.imm)
  | .srai => .instr (.srai f.rd f.rs1 (f.imm.extractLsb' 0 5))
  | .nop => .other .unmatchedAlu

/-- Load opcode: byte is funct3 0, word is funct3 2 (30_encoding.md rule R65; UNVERIFIED, unsafe, log entry 11). -/
def selectLoad (f : Fields) : Decoded :=
  if f.funct3 = 0#3 then .instr (.lb f.rd f.rs1 f.imm)
  else if f.funct3 = 2#3 then .instr (.lw f.rd f.rs1 f.imm)
  else .other (.otherLoad f.rs1 f.imm)

/-- Store opcode: byte is funct3 0, word is funct3 2 (30_encoding.md rule R65; UNVERIFIED, unsafe, log entry 11). -/
def selectStore (f : Fields) : Decoded :=
  if f.funct3 = 0#3 then .instr (.sb f.rs2 f.rs1 f.imm)
  else if f.funct3 = 2#3 then .instr (.sw f.rs2 f.rs1 f.imm)
  else .other (.otherStore f.rs1 f.imm)

/-- Branch opcode: BEQ when funct3 is 0 (42_control_transfer.md rules R106, R107). -/
def selectBranch (f : Fields) : Decoded :=
  if f.funct3 = 0#3 then .instr (.beq f.rs1 f.rs2 f.imm) else .other .otherBranch

/-- The dispatch on the opcode (40_cycle_and_alu_control.md rule R84; 30_encoding.md rules R64, R66). -/
def select (f : Fields) : Decoded :=
  if f.opcode = 0x37#7 then .instr (.lui f.rd f.imm)
  else if f.opcode = 0x6F#7 then .instr (.jal f.rd f.imm)
  else if f.opcode = 0x63#7 then selectBranch f
  else if f.opcode = 0x03#7 then selectLoad f
  else if f.opcode = 0x23#7 then selectStore f
  else if f.opcode = 0x33#7 then selectAlu f
  else if f.opcode = 0x13#7 then selectAlu f
  else .other .unknownOpcode

/-- What a word is: total on all `2^32` words (30_encoding.md rules R61, R66). -/
def decode (w : Word) : Decoded := select (fieldsOf w)

/-- The instruction a decoded word is, if it is one of the eleven. -/
def Decoded.instr? : Decoded → Option Instr
  | .instr i => some i
  | .other _ => none

/-- Byte `k` of an instruction whose bits are the number `w`, of which the table numbers `nbits`; the bits above are
zero. -/
def tableByte (nbits w k : Nat) : Byte := BitVec.ofNat 8 ((w % 2 ^ nbits) / 2 ^ (8 * k))

/-- The instruction the decoder reads from the table's word `w` of `nbits` bits, laid out as the hardware stores it:
four bytes, least significant first (20_memory.md rule R35). -/
def decodeTableWord (nbits w : Nat) : Option Instr :=
  (decode (wordOfBytes (tableByte nbits w 0) (tableByte nbits w 1) (tableByte nbits w 2) (tableByte nbits w 3))).instr?

/-! ### The encoder -/

/-- R-type layout (30_encoding.md rule R63). -/
def encodeR (funct7 : BitVec 7) (rs2 rs1 : RegIdx) (funct3 : BitVec 3) (rd : RegIdx) (opcode : BitVec 7) : Word :=
  funct7 ++ rs2 ++ rs1 ++ funct3 ++ rd ++ opcode

/-- I-type layout (30_encoding.md rule R63). -/
def encodeI (imm : Word) (rs1 : RegIdx) (funct3 : BitVec 3) (rd : RegIdx) (opcode : BitVec 7) : Word :=
  imm.extractLsb' 0 12 ++ rs1 ++ funct3 ++ rd ++ opcode

/-- S-type layout (30_encoding.md rule R63). -/
def encodeS (imm : Word) (rs2 rs1 : RegIdx) (funct3 : BitVec 3) (opcode : BitVec 7) : Word :=
  imm.extractLsb' 5 7 ++ rs2 ++ rs1 ++ funct3 ++ imm.extractLsb' 0 5 ++ opcode

/-- B-type layout (30_encoding.md rule R63). -/
def encodeB (imm : Word) (rs2 rs1 : RegIdx) (funct3 : BitVec 3) (opcode : BitVec 7) : Word :=
  imm.extractLsb' 12 1 ++ imm.extractLsb' 5 6 ++ rs2 ++ rs1 ++ funct3 ++ imm.extractLsb' 1 4 ++
    imm.extractLsb' 11 1 ++ opcode

/-- U-type layout (30_encoding.md rule R63). -/
def encodeU (imm : Word) (rd : RegIdx) (opcode : BitVec 7) : Word :=
  imm.extractLsb' 12 20 ++ rd ++ opcode

/-- J-type layout (30_encoding.md rule R63). -/
def encodeJ (imm : Word) (rd : RegIdx) (opcode : BitVec 7) : Word :=
  imm.extractLsb' 20 1 ++ imm.extractLsb' 1 10 ++ imm.extractLsb' 11 1 ++ imm.extractLsb' 12 8 ++ rd ++ opcode

/-- The word of a well-formed instruction (30_encoding.md rules R63, R64). -/
def encode : Instr → Word
  | .lui rd imm => encodeU imm rd 0x37#7
  | .jal rd imm => encodeJ imm rd 0x6F#7
  | .beq rs1 rs2 imm => encodeB imm rs2 rs1 0#3 0x63#7
  | .lb rd rs1 imm => encodeI imm rs1 0#3 rd 0x03#7
  | .lw rd rs1 imm => encodeI imm rs1 2#3 rd 0x03#7
  | .sb rs2 rs1 imm => encodeS imm rs2 rs1 0#3 0x23#7
  | .sw rs2 rs1 imm => encodeS imm rs2 rs1 2#3 0x23#7
  | .add rd rs1 rs2 => encodeR 0x00#7 rs2 rs1 0#3 rd 0x33#7
  | .xor rd rs1 rs2 => encodeR 0x00#7 rs2 rs1 4#3 rd 0x33#7
  | .ori rd rs1 imm => encodeI imm rs1 6#3 rd 0x13#7
  | .srai rd rs1 shamt => encodeR 0x20#7 shamt rs1 5#3 rd 0x13#7

end Sys2Proof
end

