-- ==== Sys2Proof/Machine/State.lean ====
section
/-! DEFINITION. The state of the core (10_state.md rules R10 to R25) as plain data, the launch inputs one step needs
(00_scope.md rule R5), the causes that end a run (60_exceptions.md rule R151), and the reset state (10_state.md rule
R25). -/

namespace Sys2Proof.Machine

/-- The run-status latch (10_state.md rule R22). -/
inductive Status where
  | running | completed | fetchFault | loadFault | storeFault
  deriving DecidableEq, Repr

/-- The kind of a data access (60_exceptions.md rule R151). -/
inductive AccessKind where
  | load | store
  deriving DecidableEq, Repr

/-- The width of a data access (20_memory.md rule R39). -/
inductive Width where
  | byte | word
  deriving DecidableEq, Repr

/-- What a step can raise (60_exceptions.md rule R151). -/
inductive Cause where
  | fetchBound
  | memBound (kind : AccessKind) (addr : Word)
  deriving DecidableEq, Repr

/-- Data memory: the bytes that differ from zero, which is what an unlisted address reads as (10_state.md rule R25:
data memory is zero at reset). Its canonical form is `Memory.wf` (Machine/Ops.lean). -/
abbrev Memory := List Host.Cell

/-- Everything the spec gives the machine, and the launch inputs, which are constant during a run. -/
structure State where
  /-- The register file (10_state.md rule R10); slot 0 is never read and never written (rule R11). -/
  regs : Vector Word 32
  /-- The program counter (10_state.md rule R13). -/
  pc : Word
  /-- Data memory (10_state.md rule R16). -/
  mem : Memory
  /-- The run-status latch (10_state.md rule R22). -/
  status : Status
  /-- The rejected effective address (10_state.md rule R22). -/
  faultAddr : Word
  /-- The no-operation output (40_cycle_and_alu_control.md rule R92). -/
  noop : Bool
  /-- Launch input: the instruction buffer; its length is `IMEM_CAPACITY` (00_scope.md rule R5; log entry 2). -/
  imem : List Byte
  /-- Launch input: `VALID_LENGTH` (00_scope.md rule R5). -/
  validLength : Nat
  deriving DecidableEq, Repr

/-- The core has no fault that loses its state: every way a run ends is a value of the status latch, with all state
readable (40_cycle_and_alu_control.md rule R94, 60_exceptions.md rules R150, R157). No step raises a fault, so the type
has no constructor (DESIGN CHOICE, safe, log entry 1). -/
inductive Fault where
  deriving DecidableEq, Repr

/-- Why a step could be refused. -/
inductive Refusal where
  /-- Raised only by an arm of `exec` without a meaning; no arm is without one, so nobody raises it. Safe: a refusal
  proves nothing about the hardware. -/
  | notModelled (mnemonic : String)
  deriving DecidableEq, Repr

/-- What one step answers. -/
abbrev StepOutcome := Host.Outcome State Fault Refusal

/-- The machine right after reset (10_state.md rule R25): registers, pc and data memory zero, status `Running`, `noop`
0. `faultAddr` is unspecified by the spec and zero here (DESIGN CHOICE, unsafe, log entry 4); no program is loaded
(DESIGN CHOICE, unsafe, log entry 3). -/
def State.reset : State where
  regs := Vector.replicate 32 0
  pc := 0
  mem := []
  status := .running
  faultAddr := 0
  noop := false
  imem := []
  validLength := 0

end Sys2Proof.Machine
end

