-- ==== Sys2Proof/Machine/Ops.lean ====
section
/-! DEFINITION. The named operations over registers, data memory, the instruction buffer and the status latch: the
register file (10_state.md rules R10, R11), `MemRead`, `MemWrite` and the bounds rule (20_memory.md rule R32),
`IFetch` (rule R38), raising a cause (60_exceptions.md rules R151 to R153), the end of a step that completes
(40_cycle_and_alu_control.md rules R89, R90) and the tests before a step (rule R81). -/

namespace Sys2Proof.Machine

/-! ### Registers -/

/-- `x[i]`: `x[0]` reads zero (10_state.md rule R11). -/
def State.reg (s : State) (i : RegIdx) : Word :=
  if i = 0#5 then 0 else s.regs[i.toNat]'(i.isLt)

/-- `x[i] <- v`: a write to `x[0]` is discarded (10_state.md rule R11; 40_cycle_and_alu_control.md rule R89 allows the
suppressed write; log entry 15). -/
def State.setReg (s : State) (i : RegIdx) (v : Word) : State :=
  if i = 0#5 then s else { s with regs := s.regs.set i.toNat v i.isLt }

/-! ### Data memory, byte by byte -/

/-- The byte at an address; an unlisted address reads zero (10_state.md rule R25). -/
def Memory.read (m : Memory) (a : Nat) : Byte :=
  match m with
  | [] => 0
  | (k, b) :: rest => if k = a then b else Memory.read rest a

/-- The memory without an entry for `a`. -/
def Memory.erase (m : Memory) (a : Nat) : Memory := m.filter (fun c => c.1 != a)

/-- The entry `(a, b)` put before the first entry of a higher address. -/
def Memory.insert (m : Memory) (a : Nat) (b : Byte) : Memory :=
  match m with
  | [] => [(a, b)]
  | c :: rest => if a < c.1 then (a, b) :: c :: rest else c :: Memory.insert rest a b

/-- `mem[a] <- b`, keeping the canonical form: writing zero removes the entry. -/
def Memory.write (m : Memory) (a : Nat) (b : Byte) : Memory :=
  if b = 0 then Memory.erase m a else Memory.insert (Memory.erase m a) a b

/-- The canonical form: addresses strictly rising, no listed zero, every address inside the data memory. -/
abbrev Memory.wf (m : Memory) : Prop :=
  m.Pairwise (fun c d => c.1 < d.1) ∧ ∀ c ∈ m, c.2 ≠ 0 ∧ c.1 < Config.dmemCapacity

/-! ### The load-store unit -/

/-- Test 1 of the bounds rule, for every load and store: the signed reading is in `[0, 4096)` (20_memory.md rule
R32). -/
def inRange (a : Word) : Bool := decide (0 ≤ a.toInt ∧ a.toInt < (Config.dmemCapacity : Int))

/-- Test 2 of the bounds rule, for word accesses only (20_memory.md rule R32). -/
def spanFits (a : Word) : Bool := decide (a.toInt + 4 ≤ (Config.dmemCapacity : Int))

/-- `InBounds(A, W)` (20_memory.md rule R32). -/
def inBounds (a : Word) : Width → Bool
  | .byte => inRange a
  | .word => inRange a && spanFits a

/-- `MemRead(A, 1)`, or nothing where the access is rejected (20_memory.md rule R32). -/
def Memory.readByte (m : Memory) (a : Word) : Option Byte :=
  if inBounds a .byte then some (m.read a.toNat) else none

/-- `MemRead(A, 4)`, little-endian, or nothing where the access is rejected (20_memory.md rules R32, R34). -/
def Memory.readWord (m : Memory) (a : Word) : Option Word :=
  if inBounds a .word then
    some (wordOfBytes (m.read a.toNat) (m.read (a.toNat + 1)) (m.read (a.toNat + 2)) (m.read (a.toNat + 3)))
  else none

/-- `MemWrite(A, 1, v)`, or nothing where the access is rejected (20_memory.md rule R32). -/
def Memory.writeByte (m : Memory) (a v : Word) : Option Memory :=
  if inBounds a .byte then some (m.write a.toNat (byteOfWord v 0)) else none

/-- `MemWrite(A, 4, v)`, little-endian; a rejected access writes none of its bytes (20_memory.md rules R32, R33). -/
def Memory.writeWord (m : Memory) (a v : Word) : Option Memory :=
  if inBounds a .word then
    some ((((m.write a.toNat (byteOfWord v 0)).write (a.toNat + 1) (byteOfWord v 1)).write
      (a.toNat + 2) (byteOfWord v 2)).write (a.toNat + 3) (byteOfWord v 3))
  else none

/-! ### The end of a step -/

/-- A step that completes: the pc takes `nextPC` and the `noop` output says whether the word was one of the eleven
instructions (40_cycle_and_alu_control.md rules R90, R92). -/
def State.retire (s : State) (nextPc : Word) (noop : Bool) : State := { s with pc := nextPc, noop := noop }

/-- `raise <Cause>(info)`: the latch takes the cause and, for a data access, `fault_addr` the rejected address;
nothing else of the step is committed, the pc included (00_scope.md rule R7, 60_exceptions.md rules R152, R153). This
is the core's whole exception entry: it has no handler, no saved state and no return (rules R150, R158). -/
def State.raise (s : State) : Cause → State
  | .fetchBound => { s with status := .fetchFault }
  | .memBound .load ea => { s with status := .loadFault, faultAddr := ea }
  | .memBound .store ea => { s with status := .storeFault, faultAddr := ea }

/-- Normal completion changes nothing but the latch (60_exceptions.md rule R154). -/
def State.complete (s : State) : State := { s with status := .completed }

/-! ### Before the step, and the fetch -/

/-- The tests before the fetch, in order (40_cycle_and_alu_control.md rules R81, R96): a halted core changes nothing,
a pc at or beyond `VALID_LENGTH` completes the run; nothing if the step goes on. -/
def State.endedBeforeFetch (s : State) : Option State :=
  if s.status = .running then
    if s.validLength ≤ s.pc.toNat then some s.complete else none
  else some s

/-- `IFetch(pc)`, little-endian, or nothing where the fetch is invalid: `pc + 3 < IMEM_CAPACITY` in the naturals
(20_memory.md rules R35, R38). -/
def State.fetch (s : State) : Option Word :=
  if s.pc.toNat + 3 < s.imem.length then
    some (wordOfBytes (s.imem.getD s.pc.toNat 0) (s.imem.getD (s.pc.toNat + 1) 0) (s.imem.getD (s.pc.toNat + 2) 0)
      (s.imem.getD (s.pc.toNat + 3) 0))
  else none

/-! ### The launch -/

/-- An instruction buffer with the bytes `bs` at offset `k`; a buffer that ends before `k` is filled up with zeros. -/
def placeBytes (imem : List Byte) (k : Nat) (bs : List Byte) : List Byte :=
  imem.take k ++ List.replicate (k - imem.length) 0 ++ bs ++ imem.drop (k + bs.length)

/-- The launch of a program that has the word `w` (of which the table numbers `nbits` bits, those above zero) where the
pc stands: its four bytes in the buffer, `VALID_LENGTH` past them, the latch `Running` (70_reset_and_hazards.md rule
R172; log entry 3). -/
def State.placeWord (s : State) (nbits w : Nat) : State :=
  { s with
    imem := placeBytes s.imem s.pc.toNat [tableByte nbits w 0, tableByte nbits w 1, tableByte nbits w 2, tableByte nbits w 3]
    validLength := max s.validLength (s.pc.toNat + 4)
    status := .running }

/-- The latch's code on the status port (10_state.md rule R22). -/
def Status.code : Status → BitVec 3
  | .running => 0
  | .completed => 1
  | .fetchFault => 2
  | .loadFault => 3
  | .storeFault => 4

end Sys2Proof.Machine
end

