-- ==== Sys2Proof/Machine/Operands.lean ====
section
/-! DEFINITION. Every operand form of the core: the base register plus displacement of a load or store
(43_loads_stores.md rule R115), the default next pc (40_cycle_and_alu_control.md rule R85) and the pc-relative target of
JAL and BEQ (42_control_transfer.md rules R105, R106), and the ALU datapath (40_cycle_and_alu_control.md rule R88). All
sums are modulo `2^32` (the spec's decisions D1 and D3; log entries 5 and 6). -/

namespace Sys2Proof.Machine

/-- `EA := x[rs1] + imm` (43_loads_stores.md rule R115). -/
def State.effAddr (s : State) (rs1 : RegIdx) (imm : Word) : Word := s.reg rs1 + imm

/-- The default `nextPC`, also JAL's link value (40_cycle_and_alu_control.md rule R85, 42_control_transfer.md rule
R105). -/
def State.nextPc (s : State) : Word := s.pc + 4

/-- The target of JAL and of a taken BEQ (42_control_transfer.md rules R105, R106). -/
def State.target (s : State) (imm : Word) : Word := s.pc + imm

/-- The ALU: the result an operation gives, or nothing where it writes no register (40_cycle_and_alu_control.md rule
R88). -/
def alu (op : AluOperation) (a b : Word) : Option Word :=
  match op with
  | .add => some (a + b)
  | .xor => some (a ^^^ b)
  | .ori => some (a ||| b)
  | .srai => some (a.sshiftRight (b.extractLsb' 0 5).toNat)
  | .nop => none

end Sys2Proof.Machine
end

