-- ==== Sys2Proof/Machine/Flags.lean ====
section
/-! DEFINITION. The core has no flags, condition codes or predicate registers (10_state.md rule R19). The one condition
an instruction computes is BEQ's comparison, used and dropped within the step (42_control_transfer.md rule R106). -/

namespace Sys2Proof.Machine

/-- BEQ's condition: the two 32-bit patterns are equal (42_control_transfer.md rule R106). -/
def patternsEqual (a b : Word) : Bool := a == b

end Sys2Proof.Machine
end

