-- ==== Sys2Proof/Machine/ControlTransfer.lean ====
section
/-! DEFINITION. The control-transfer family: JAL and BEQ (42_control_transfer.md). Neither tests its target; the next
step's tests classify it (rules R108, R109). -/

namespace Sys2Proof.Machine

/-- JAL: the link is `pc + 4`, the next pc is `pc + imm`, both from the JAL's own pc (42_control_transfer.md rule
R105). -/
def execJal (rd : RegIdx) (imm : Word) (s : State) : StepOutcome :=
  .next ((s.setReg rd s.nextPc).retire (s.target imm) false)

/-- BEQ: to `pc + imm` if the two registers hold the same pattern, else to `pc + 4` (42_control_transfer.md rule
R106). -/
def execBeq (rs1 rs2 : RegIdx) (imm : Word) (s : State) : StepOutcome :=
  .next (s.retire (if patternsEqual (s.reg rs1) (s.reg rs2) then s.target imm else s.nextPc) false)

end Sys2Proof.Machine
end

