-- ==== Sys2Proof/Machine/IntegerAlu.lean ====
section
/-! DEFINITION. The integer ALU family: ADD, XOR, ORI, SRAI (44_integer_alu.md), each over the one datapath `alu`. -/

namespace Sys2Proof.Machine

/-- The end of an ALU step: the result, if there is one, goes to `rd` (40_cycle_and_alu_control.md rules R88, R89). -/
def State.finishAlu (s : State) (rd : RegIdx) : Option Word → State
  | some v => (s.setReg rd v).retire s.nextPc false
  | none => s.retire s.nextPc false

/-- ADD: `x[rd] <- x[rs1] + x[rs2]` modulo `2^32` (44_integer_alu.md rule R130). -/
def execAdd (rd rs1 rs2 : RegIdx) (s : State) : StepOutcome :=
  .next (s.finishAlu rd (alu .add (s.reg rs1) (s.reg rs2)))

/-- XOR: `x[rd] <- x[rs1] ^ x[rs2]` (44_integer_alu.md rule R131). -/
def execXor (rd rs1 rs2 : RegIdx) (s : State) : StepOutcome :=
  .next (s.finishAlu rd (alu .xor (s.reg rs1) (s.reg rs2)))

/-- ORI: `x[rd] <- x[rs1] | imm` (44_integer_alu.md rule R132). -/
def execOri (rd rs1 : RegIdx) (imm : Word) (s : State) : StepOutcome :=
  .next (s.finishAlu rd (alu .ori (s.reg rs1) imm))

/-- SRAI: `x[rd] <- x[rs1] >>s shamt`; the ALU's second operand is the immediate `0x400 + shamt` (44_integer_alu.md
rule R133, 30_encoding.md rule R57). -/
def execSrai (rd rs1 : RegIdx) (shamt : BitVec 5) (s : State) : StepOutcome :=
  .next (s.finishAlu rd (alu .srai (s.reg rs1) ((0x20#7 ++ shamt : BitVec 12).signExtend 32)))

end Sys2Proof.Machine
end

