-- ==== Sys2Proof/Machine/LoadStore.lean ====
section
/-! DEFINITION. The load-store family: LB, LW, SB, SW, and the load and store opcodes with another funct3
(43_loads_stores.md). -/

namespace Sys2Proof.Machine

/-- The end of a load from `ea`: the value goes to `rd`, or the access was rejected and the violation is raised,
whatever `rd` is (43_loads_stores.md rule R116). -/
def State.finishLoad (s : State) (rd : RegIdx) (ea : Word) : Option Word → State
  | some v => (s.setReg rd v).retire s.nextPc false
  | none => s.raise (.memBound .load ea)

/-- The end of a store to `ea`: the memory after it, or the violation raised (43_loads_stores.md rule R116). -/
def State.finishStore (s : State) (ea : Word) : Option Memory → State
  | some m => State.retire { s with mem := m } s.nextPc false
  | none => s.raise (.memBound .store ea)

/-- LB: the sign-extended byte at `EA` (43_loads_stores.md rule R117). -/
def execLb (rd rs1 : RegIdx) (imm : Word) (s : State) : StepOutcome :=
  .next (s.finishLoad rd (s.effAddr rs1 imm) ((s.mem.readByte (s.effAddr rs1 imm)).map (·.signExtend 32)))

/-- LW: the little-endian word at `EA` (43_loads_stores.md rule R118). -/
def execLw (rd rs1 : RegIdx) (imm : Word) (s : State) : StepOutcome :=
  .next (s.finishLoad rd (s.effAddr rs1 imm) (s.mem.readWord (s.effAddr rs1 imm)))

/-- SB: the low byte of `x[rs2]` to `EA` (43_loads_stores.md rule R119). -/
def execSb (rs2 rs1 : RegIdx) (imm : Word) (s : State) : StepOutcome :=
  .next (s.finishStore (s.effAddr rs1 imm) (s.mem.writeByte (s.effAddr rs1 imm) (s.reg rs2)))

/-- SW: the four bytes of `x[rs2]` to `EA` (43_loads_stores.md rule R120). -/
def execSw (rs2 rs1 : RegIdx) (imm : Word) (s : State) : StepOutcome :=
  .next (s.finishStore (s.effAddr rs1 imm) (s.mem.writeWord (s.effAddr rs1 imm) (s.reg rs2)))

/-- A load or store of another width: the range test alone, then nothing (43_loads_stores.md rules R121, R122; the
spec's decision D10; UNVERIFIED, unsafe, log entry 10). -/
def State.otherWidth (s : State) (kind : AccessKind) (ea : Word) : State :=
  if inRange ea then s.retire s.nextPc true else s.raise (.memBound kind ea)

end Sys2Proof.Machine
end

