-- ==== Sys2Proof/Machine/UpperImmediate.lean ====
section
/-! DEFINITION. The upper-immediate family: LUI (41_upper_immediate.md). -/

namespace Sys2Proof.Machine

/-- LUI: `x[rd] <- imm`, which the decoder delivers already shifted (41_upper_immediate.md rule R100). -/
def execLui (rd : RegIdx) (imm : Word) (s : State) : StepOutcome :=
  .next ((s.setReg rd imm).retire s.nextPc false)

end Sys2Proof.Machine
end

