-- ==== Sys2Proof/Machine/OtherWords.lean ====
section
/-! DEFINITION. What the words outside the eleven instructions do (30_encoding.md rule R66): the no-operation
(40_cycle_and_alu_control.md rule R91), and the range test of a load or store opcode of another width. -/

namespace Sys2Proof.Machine

/-- The no-operation: nothing changes but the pc (40_cycle_and_alu_control.md rule R91), and `noop` is 1 (rule R92). -/
def State.noOperation (s : State) : State := s.retire s.nextPc true

/-- One step of a word that is none of the eleven instructions (30_encoding.md rule R66, classes 1 to 5). -/
def execOther (o : OtherWord) (s : State) : StepOutcome :=
  match o with
  | .unknownOpcode => .next s.noOperation
  | .unmatchedAlu => .next s.noOperation
  | .otherBranch => .next s.noOperation
  | .otherLoad rs1 imm => .next (s.otherWidth .load (s.effAddr rs1 imm))
  | .otherStore rs1 imm => .next (s.otherWidth .store (s.effAddr rs1 imm))

end Sys2Proof.Machine
end

