-- ==== Sys2Proof/Machine/Step.lean ====
section
/-! DEFINITION. One step (40_cycle_and_alu_control.md rule R80): the tests before it, the fetch, the decoder and the
dispatch, all called from the files a repair can mend. -/

namespace Sys2Proof.Machine

/-- One step of the core (40_cycle_and_alu_control.md rules R80 to R84, R91, R93, R96). -/
def step (s : State) : Host.Outcome State Fault Refusal :=
  match s.endedBeforeFetch with
  | some t => .next t
  | none =>
    match s.fetch with
    | none => .next (s.raise .fetchBound)
    | some w =>
      match decode w with
      | .instr i => exec i s
      | .other o => execOther o s

/-- `s` with the table's word `w` of `nbits` bits placed where `step` fetches its next instruction, launched so that
the next step runs it (log entry 3). -/
def State.withFetchWord (s : State) (nbits w : Nat) : State := s.placeWord nbits w

end Sys2Proof.Machine
end

