-- ==== Sys2Proof/Machine/Driver.lean ====
section
/-! DEFINITION. What the external driver does (70_reset_and_hazards.md rules R170 to R176): launch, the reset input,
the run loop under fuel, and the result it reads. The driver has no move on the core's state during a run. -/

namespace Sys2Proof.Machine

/-- Launch: reset with the driver's choice of instruction buffer and `VALID_LENGTH` (70_reset_and_hazards.md rule
R172). -/
def State.launch (imem : List Byte) (validLength : Nat) : State :=
  { State.reset with imem := imem, validLength := validLength }

/-- The reset input `rst`: every piece of state takes its reset value; the launch inputs are the driver's and stay
(70_reset_and_hazards.md rule R170, 10_state.md rules R17, R25). -/
def State.rst (s : State) : State := State.launch s.imem s.validLength

/-- One invocation of `step` by the driver: the core never faults or is refused, so a stopped outcome, which does not
arise, leaves the state. -/
def driverStep (s : State) : State :=
  match step s with
  | .next t => t
  | .fault _ => s
  | .refused _ => s

/-- The run loop of 40_cycle_and_alu_control.md rule R94, at most `fuel` steps (rule R95: a run need not end). -/
def runFuel : Nat → State → State
  | 0, s => s
  | fuel + 1, s => if s.status = .running then runFuel fuel (driverStep s) else s

/-- The result contract: `(s(x10), s(x11))` (40_cycle_and_alu_control.md rule R94). -/
def State.result (s : State) : Int × Int := ((s.reg 10#5).toInt, (s.reg 11#5).toInt)

end Sys2Proof.Machine
end

