-- ==== Sys2Proof/WellFormed.lean ====
section
/-! DEFINITION. Which instructions an encoding can hold: the immediate must be a value the instruction's format
produces (30_encoding.md rules R53 to R57, R60). Registers and the shift amount need no check: their fields hold
every value of their types. -/

namespace Sys2Proof

/-- `imm` is a sign-extended `n`-bit value (30_encoding.md rule R60). -/
def immFitsSigned (n : Nat) (imm : Word) : Bool := imm == (imm.setWidth n).signExtend 32

/-- The U-type immediate has its low 12 bits zero (30_encoding.md rule R53). -/
def immFitsU (imm : Word) : Bool := imm.setWidth 12 == 0#12

/-- The J-type immediate is a 21-bit signed even value (30_encoding.md rule R54). -/
def immFitsJ (imm : Word) : Bool := immFitsSigned 21 imm && !imm.getLsbD 0

/-- The B-type immediate is a 13-bit signed even value (30_encoding.md rule R55). -/
def immFitsB (imm : Word) : Bool := immFitsSigned 13 imm && !imm.getLsbD 0

/-- The I-type and S-type immediates are 12-bit signed values (30_encoding.md rules R56, R57). -/
def immFits12 (imm : Word) : Bool := immFitsSigned 12 imm

/-- The instruction's immediate is one its encoding can hold. -/
def wellFormed : Instr → Bool
  | .lui _ imm => immFitsU imm
  | .jal _ imm => immFitsJ imm
  | .beq _ _ imm => immFitsB imm
  | .lb _ _ imm => immFits12 imm
  | .lw _ _ imm => immFits12 imm
  | .sb _ _ imm => immFits12 imm
  | .sw _ _ imm => immFits12 imm
  | .add _ _ _ => true
  | .xor _ _ _ => true
  | .ori _ _ imm => immFits12 imm
  | .srai _ _ _ => true

end Sys2Proof
end

