-- ==== Sys2Proof/Safety.lean ====
section
/-! DEFINITION. The terms the claims use: when a step executes a word, what a step leaves unchanged, what a safe run
is, and the invariants of the machine. -/

namespace Sys2Proof.Machine

/-- A step at `s` fetches and executes the word `w`: it passes the tests before the fetch, and the fetch is valid
(40_cycle_and_alu_control.md rules R80 to R82). -/
def State.runs (s : State) (w : Word) : Prop :=
  s.status = .running ∧ s.pc.toNat < s.validLength ∧ s.fetch = some w

/-! ### Frames -/

/-- Every register reads as before. -/
def RegsKept (s t : State) : Prop := ∀ r, t.reg r = s.reg r

/-- `rd` reads the value written to it, `x0` reads zero whatever `rd` is, every other register reads as before
(10_state.md rule R11). -/
def RegWritten (s t : State) (rd : RegIdx) (v : Word) : Prop :=
  ∀ r, t.reg r = if r = 0#5 then 0 else if r = rd then v else s.reg r

/-- Every byte of data memory reads as before. -/
def MemKept (s t : State) : Prop := ∀ a, t.mem.read a = s.mem.read a

/-- Every byte of data memory outside the `n` bytes from `a` on reads as before. -/
def BytesKeptOutside (s t : State) (a n : Nat) : Prop :=
  ∀ b, ¬ (a ≤ b ∧ b < a + n) → t.mem.read b = s.mem.read b

/-- The launch inputs are as before. -/
def LaunchKept (s t : State) : Prop := t.imem = s.imem ∧ t.validLength = s.validLength

/-- The status latch and the recorded address are as before. -/
def LatchKept (s t : State) : Prop := t.status = s.status ∧ t.faultAddr = s.faultAddr

/-- The step completes: the pc and the `noop` output take these values; the latch and the launch inputs are as
before. -/
def Completes (s t : State) (nextPc : Word) (noop : Bool) : Prop :=
  t.pc = nextPc ∧ t.noop = noop ∧ LatchKept s t ∧ LaunchKept s t

/-- The step is a no-operation: nothing changes but the pc and the `noop` output (40_cycle_and_alu_control.md rules
R91, R92). -/
def IsNoOperation (s t : State) : Prop :=
  RegsKept s t ∧ MemKept s t ∧ Completes s t (s.pc + 4) true

/-- The step raises a memory-bound violation: the latch and the recorded address change and nothing else does
(60_exceptions.md rule R153). -/
def HaltsWith (s t : State) (status : Status) (ea : Word) : Prop :=
  t.status = status ∧ t.faultAddr = ea ∧ t.pc = s.pc ∧ t.noop = s.noop ∧ RegsKept s t ∧ MemKept s t ∧ LaunchKept s t

/-! ### Instructions as syntax -/

/-- The register an instruction names as its destination (10_state.md rule R12). -/
def destOf : Instr → Option RegIdx
  | .lui rd _ => some rd
  | .jal rd _ => some rd
  | .beq _ _ _ => none
  | .lb rd _ _ => some rd
  | .lw rd _ _ => some rd
  | .sb _ _ _ => none
  | .sw _ _ _ => none
  | .add rd _ _ => some rd
  | .xor rd _ _ => some rd
  | .ori rd _ _ => some rd
  | .srai rd _ _ => some rd

/-- The same instruction with another destination; one without a destination stays as it is. -/
def withDest (i : Instr) (r : RegIdx) : Instr :=
  match i with
  | .lui _ imm => .lui r imm
  | .jal _ imm => .jal r imm
  | .beq rs1 rs2 imm => .beq rs1 rs2 imm
  | .lb _ rs1 imm => .lb r rs1 imm
  | .lw _ rs1 imm => .lw r rs1 imm
  | .sb rs2 rs1 imm => .sb rs2 rs1 imm
  | .sw rs2 rs1 imm => .sw rs2 rs1 imm
  | .add _ rs1 rs2 => .add r rs1 rs2
  | .xor _ rs1 rs2 => .xor r rs1 rs2
  | .ori _ rs1 imm => .ori r rs1 imm
  | .srai _ rs1 shamt => .srai r rs1 shamt

/-- `i` is a load (10_state.md rule R16: data memory is read only by load instructions). -/
def isLoad : Instr → Bool
  | .lb _ _ _ => true
  | .lw _ _ _ => true
  | .lui _ _ | .jal _ _ | .beq _ _ _ | .sb _ _ _ | .sw _ _ _ | .add _ _ _ | .xor _ _ _ | .ori _ _ _ | .srai _ _ _ => false

/-! ### Safe runs and invariants -/

/-- The run has ended by a bounds violation (60_exceptions.md rule R151); a safe run never reaches such a state. -/
def State.violated (s : State) : Bool :=
  match s.status with
  | .running => false
  | .completed => false
  | .fetchFault => true
  | .loadFault => true
  | .storeFault => true

/-- The driver's launch premises on the buffer and its length (70_reset_and_hazards.md rule R172, 00_scope.md rule
R5). -/
def State.launchOk (s : State) : Prop :=
  s.validLength ≤ s.imem.length ∧ s.imem.length ≤ Config.imemCapacityMax

/-- Register slot 0 holds zero, so equal register files are equal data (10_state.md rule R11). -/
def State.slotZero (s : State) : Prop := s.regs[0]'(by decide) = 0

/-- The pc is even: an odd pc cannot arise (10_state.md rule R14). -/
def State.pcEven (s : State) : Prop := s.pc.getLsbD 0 = false

/-- The latch tells the truth about the state that halted (60_exceptions.md rule R151): completed past the program,
fetch fault where the fetch is invalid inside it, load or store fault with an address at which no word access is in
bounds. -/
def State.latchTruthful (s : State) : Prop :=
  match s.status with
  | .running => True
  | .completed => s.validLength ≤ s.pc.toNat
  | .fetchFault => s.pc.toNat < s.validLength ∧ s.imem.length ≤ s.pc.toNat + 3
  | .loadFault => inBounds s.faultAddr .word = false
  | .storeFault => inBounds s.faultAddr .word = false

end Sys2Proof.Machine
end

