-- ==== Sys2Proof/Certificates/Slice0/Obligations.lean ====
section
/-! DEFINITION. The statements about the model, each from the rules of spec/ it cites. Where a statement rests on a
decision of the spec (92_eei_decisions.md) its docstring says so and names the log entry. -/

open Sys2Proof Sys2Proof.Machine

/-! ### The decoder and the encoder -/

/-- Decoding an encoded well-formed instruction gives it back, every operand at every value its encoding holds
(30_encoding.md sections 2 and 3; the loads' and stores' funct3 is decision D11, log entry 11). -/
def Obligations.DecodeOfEncode : Prop :=
  ∀ i : Instr, wellFormed i = true → decode (encode i) = .instr i

/-- The other direction: a word that decodes to an instruction is that instruction's encoding, so no bit of a word
is dropped and no two words mean the same instruction. -/
def Obligations.EncodeOfDecode : Prop :=
  ∀ (w : Word) (i : Instr), decode w = .instr i → encode i = w

/-- What the decoder delivers is well-formed: every immediate is in the range its rule gives (30_encoding.md
section 1). -/
def Obligations.DecodedIsWellFormed : Prop :=
  ∀ (w : Word) (i : Instr), decode w = .instr i → wellFormed i = true

/-- The opcode map: a word is an instruction of the table exactly where its row's mask and match say so, with its
register fields and its format's immediate (30_encoding.md section 3; the loads' and stores' funct3 is decision D11, log
entry 11). -/
def Obligations.OpcodeMapSelects : Prop :=
  ∀ w : Word,
    (w &&& 0x0000007F = 0x00000037 ↔ decode w = .instr (.lui (w.extractLsb' 7 5) (immU w))) ∧
    (w &&& 0x0000007F = 0x0000006F ↔ decode w = .instr (.jal (w.extractLsb' 7 5) (immJ w))) ∧
    (w &&& 0x0000707F = 0x00000063 ↔ decode w = .instr (.beq (w.extractLsb' 15 5) (w.extractLsb' 20 5) (immB w))) ∧
    (w &&& 0x0000707F = 0x00000003 ↔ decode w = .instr (.lb (w.extractLsb' 7 5) (w.extractLsb' 15 5) (immI w))) ∧
    (w &&& 0x0000707F = 0x00002003 ↔ decode w = .instr (.lw (w.extractLsb' 7 5) (w.extractLsb' 15 5) (immI w))) ∧
    (w &&& 0x0000707F = 0x00000023 ↔ decode w = .instr (.sb (w.extractLsb' 20 5) (w.extractLsb' 15 5) (immS w))) ∧
    (w &&& 0x0000707F = 0x00002023 ↔ decode w = .instr (.sw (w.extractLsb' 20 5) (w.extractLsb' 15 5) (immS w))) ∧
    (w &&& 0xFE00707F = 0x00000033 ↔
      decode w = .instr (.add (w.extractLsb' 7 5) (w.extractLsb' 15 5) (w.extractLsb' 20 5))) ∧
    (w &&& 0xFE00707F = 0x00004033 ↔
      decode w = .instr (.xor (w.extractLsb' 7 5) (w.extractLsb' 15 5) (w.extractLsb' 20 5))) ∧
    (w &&& 0x0000707F = 0x00006013 ↔ decode w = .instr (.ori (w.extractLsb' 7 5) (w.extractLsb' 15 5) (immI w))) ∧
    (w &&& 0xFE00707F = 0x40005013 ↔
      decode w = .instr (.srai (w.extractLsb' 7 5) (w.extractLsb' 15 5) (w.extractLsb' 20 5)))

/-- Six fields come from fixed bit positions of every word, whatever its opcode (30_encoding.md rule R51). -/
def Obligations.PositionalFields : Prop :=
  ∀ (w : Word) (k : Nat),
    (k < 7 → (fieldsOf w).opcode.getLsbD k = w.getLsbD k) ∧
    (k < 5 → (fieldsOf w).rd.getLsbD k = w.getLsbD (k + 7)) ∧
    (k < 3 → (fieldsOf w).funct3.getLsbD k = w.getLsbD (k + 12)) ∧
    (k < 5 → (fieldsOf w).rs1.getLsbD k = w.getLsbD (k + 15)) ∧
    (k < 5 → (fieldsOf w).rs2.getLsbD k = w.getLsbD (k + 20)) ∧
    (k < 7 → (fieldsOf w).funct7.getLsbD k = w.getLsbD (k + 25))

/-- The format mux: the opcode alone selects the format, the format selects the immediate (30_encoding.md rule R52). -/
def Obligations.FormatMux : Prop :=
  ∀ w : Word,
    ((fieldsOf w).format = .u ↔ w.extractLsb' 0 7 = 0x37#7) ∧
    ((fieldsOf w).format = .j ↔ w.extractLsb' 0 7 = 0x6F#7) ∧
    ((fieldsOf w).format = .b ↔ w.extractLsb' 0 7 = 0x63#7) ∧
    ((fieldsOf w).format = .s ↔ w.extractLsb' 0 7 = 0x23#7) ∧
    ((fieldsOf w).format = .i ↔ w.extractLsb' 0 7 = 0x03#7 ∨ w.extractLsb' 0 7 = 0x13#7) ∧
    ((fieldsOf w).format = .r ↔ w.extractLsb' 0 7 = 0x33#7) ∧
    (fieldsOf w).imm = (match (fieldsOf w).format with
      | .u => immU w
      | .j => immJ w
      | .b => immB w
      | .s => immS w
      | .i => immI w
      | .r => 0
      | .unknown => 0)

/-- The U-type, R-type and unknown-opcode immediates, bit by bit (30_encoding.md rules R53, R58, R59), with R53's range:
multiples of 4096 from -2^31 to 2^31 - 4096; the positional fields of an unknown opcode are still produced. -/
def Obligations.ImmediateOfUAndRAndUnknown : Prop :=
  ∀ w : Word,
    ((fieldsOf w).opcode = 0x37#7 →
      (∀ k, k < 32 → (fieldsOf w).imm.getLsbD k = (decide (12 ≤ k) && w.getLsbD k)) ∧
      (fieldsOf w).imm = w &&& 0xFFFFF000 ∧
      -2147483648 ≤ (fieldsOf w).imm.toInt ∧ (fieldsOf w).imm.toInt ≤ 2147479552 ∧ (fieldsOf w).imm.toInt % 4096 = 0) ∧
    ((fieldsOf w).opcode = 0x33#7 → (fieldsOf w).imm = 0) ∧
    ((fieldsOf w).opcode ∉ [0x37#7, 0x6F#7, 0x63#7, 0x23#7, 0x03#7, 0x13#7, 0x33#7] →
      (fieldsOf w).imm = 0 ∧ (fieldsOf w).format = .unknown ∧ (fieldsOf w).rd = w.extractLsb' 7 5 ∧
      (fieldsOf w).funct3 = w.extractLsb' 12 3 ∧ (fieldsOf w).rs1 = w.extractLsb' 15 5 ∧
      (fieldsOf w).rs2 = w.extractLsb' 20 5 ∧ (fieldsOf w).funct7 = w.extractLsb' 25 7)

/-- The J-type and B-type immediates, bit by bit, with their ranges (30_encoding.md rules R54, R55). -/
def Obligations.ImmediateOfJAndB : Prop :=
  ∀ w : Word,
    ((fieldsOf w).opcode = 0x6F#7 →
      (∀ k, k < 32 → (fieldsOf w).imm.getLsbD k =
        if k = 0 then false
        else if k ≤ 10 then w.getLsbD (k + 20)
        else if k = 11 then w.getLsbD 20
        else if k ≤ 19 then w.getLsbD k
        else w.getLsbD 31) ∧
      -1048576 ≤ (fieldsOf w).imm.toInt ∧ (fieldsOf w).imm.toInt ≤ 1048574 ∧ (fieldsOf w).imm.toInt % 2 = 0) ∧
    ((fieldsOf w).opcode = 0x63#7 →
      (∀ k, k < 32 → (fieldsOf w).imm.getLsbD k =
        if k = 0 then false
        else if k ≤ 4 then w.getLsbD (k + 7)
        else if k ≤ 10 then w.getLsbD (k + 20)
        else if k = 11 then w.getLsbD 7
        else w.getLsbD 31) ∧
      -4096 ≤ (fieldsOf w).imm.toInt ∧ (fieldsOf w).imm.toInt ≤ 4094 ∧ (fieldsOf w).imm.toInt % 2 = 0)

/-- The S-type and I-type immediates, bit by bit, with their ranges, and SRAI's, whose low five bits are the shift
amount (30_encoding.md rules R56, R57). -/
def Obligations.ImmediateOfSAndI : Prop :=
  ∀ w : Word,
    ((fieldsOf w).opcode = 0x23#7 →
      (∀ k, k < 32 → (fieldsOf w).imm.getLsbD k =
        if k ≤ 4 then w.getLsbD (k + 7)
        else if k ≤ 10 then w.getLsbD (k + 20)
        else w.getLsbD 31) ∧
      -2048 ≤ (fieldsOf w).imm.toInt ∧ (fieldsOf w).imm.toInt ≤ 2047) ∧
    ((fieldsOf w).opcode = 0x03#7 ∨ (fieldsOf w).opcode = 0x13#7 →
      (∀ k, k < 32 → (fieldsOf w).imm.getLsbD k = if k ≤ 10 then w.getLsbD (k + 20) else w.getLsbD 31) ∧
      -2048 ≤ (fieldsOf w).imm.toInt ∧ (fieldsOf w).imm.toInt ≤ 2047) ∧
    ((fieldsOf w).opcode = 0x13#7 ∧ (fieldsOf w).funct3 = 5#3 ∧ (fieldsOf w).funct7 = 0x20#7 →
      (fieldsOf w).imm.toNat = 1024 + (w.extractLsb' 20 5).toNat ∧
      (fieldsOf w).imm.extractLsb' 0 5 = w.extractLsb' 20 5)

/-- The class tag and the ALU control table, every other combination NOP (40_cycle_and_alu_control.md rules R86,
R87). -/
def Obligations.AluControlTable : Prop :=
  (∀ op : BitVec 7, aluClassOf op =
    if op = 0x33#7 then .rClass else if op = 0x13#7 then .iClass else .none) ∧
  ∀ (c : AluClass) (f3 : BitVec 3) (f7 : BitVec 7),
    (aluControl c f3 f7 = .add ↔ c = .rClass ∧ f3 = 0#3 ∧ f7 = 0x00#7) ∧
    (aluControl c f3 f7 = .xor ↔ c = .rClass ∧ f3 = 4#3 ∧ f7 = 0x00#7) ∧
    (aluControl c f3 f7 = .ori ↔ c = .iClass ∧ f3 = 6#3) ∧
    (aluControl c f3 f7 = .srai ↔ c = .iClass ∧ f3 = 5#3 ∧ f7 = 0x20#7)

/-- A few words of 95_test_vectors.md part 2, written out from the encodings, decode to what they stand for. -/
def Obligations.SampleWordsDecode : Prop :=
  decode 0x00001537 = .instr (.lui 10 0x00001000) ∧
  decode 0xFF5FF06F = .instr (.jal 0 0xFFFFFFF4) ∧
  decode 0xFE208FE3 = .instr (.beq 1 2 0xFFFFFFFE) ∧
  decode 0xFFF28583 = .instr (.lb 11 5 0xFFFFFFFF) ∧
  decode 0x8020A023 = .instr (.sw 2 1 0xFFFFF800) ∧
  decode 0x00650533 = .instr (.add 10 10 6) ∧
  decode 0x4042D313 = .instr (.srai 6 5 4) ∧
  decode 0x00500513 = .other .unmatchedAlu

/-! ### The load-store unit -/

/-- The bounds rule: the two tests, what a read and a write do where they pass, and that a rejected access of any of
the four instructions raises the violation with no partial effect: no register and no byte of memory changes
(20_memory.md rules R32, R33). -/
def Obligations.BoundsRule : Prop :=
  (∀ (m : Memory) (a v : Word),
    (inBounds a .byte = true ↔ 0 ≤ a.toInt ∧ a.toInt < 4096) ∧
    (inBounds a .word = true ↔ 0 ≤ a.toInt ∧ a.toInt < 4096 ∧ a.toInt + 4 ≤ 4096) ∧
    (if inBounds a .byte then
      m.readByte a = some (m.read a.toNat) ∧
      ∃ m', m.writeByte a v = some m' ∧ ∀ x, m'.read x = if x = a.toNat then v.extractLsb' 0 8 else m.read x
    else m.readByte a = none ∧ m.writeByte a v = none) ∧
    (if inBounds a .word then
      m.readWord a =
        some (m.read (a.toNat + 3) ++ m.read (a.toNat + 2) ++ m.read (a.toNat + 1) ++ m.read a.toNat) ∧
      ∃ m', m.writeWord a v = some m' ∧
        ∀ x, m'.read x = if a.toNat ≤ x ∧ x < a.toNat + 4 then v.extractLsb' (8 * (x - a.toNat)) 8 else m.read x
    else m.readWord a = none ∧ m.writeWord a v = none)) ∧
  ∀ (s : State) (r rs1 : RegIdx) (imm : Word),
    (inBounds (s.effAddr rs1 imm) .byte = false →
      (∃ t, exec (.lb r rs1 imm) s = .next t ∧ RegsKept s t ∧ MemKept s t ∧
        t.status = .loadFault ∧ t.faultAddr = s.effAddr rs1 imm) ∧
      (∃ t, exec (.sb r rs1 imm) s = .next t ∧ RegsKept s t ∧ MemKept s t ∧
        t.status = .storeFault ∧ t.faultAddr = s.effAddr rs1 imm)) ∧
    (inBounds (s.effAddr rs1 imm) .word = false →
      (∃ t, exec (.lw r rs1 imm) s = .next t ∧ RegsKept s t ∧ MemKept s t ∧
        t.status = .loadFault ∧ t.faultAddr = s.effAddr rs1 imm) ∧
      (∃ t, exec (.sw r rs1 imm) s = .next t ∧ RegsKept s t ∧ MemKept s t ∧
        t.status = .storeFault ∧ t.faultAddr = s.effAddr rs1 imm))

/-- The signed and the unsigned reading of the range test accept the same patterns, and a word is accepted exactly
at 0 to 4092 (20_memory.md section 1; decision D17 calls the choice unobservable). -/
def Obligations.SignedAndUnsignedBoundsAgree : Prop :=
  ∀ a : Word,
    (inBounds a .byte = true ↔ a.toNat < 4096) ∧ (inBounds a .word = true ↔ a.toNat ≤ 4092)

/-- A word stored at any address in bounds, aligned or not, is what a word load there returns, and neither raises
anything (20_memory.md rule R36). -/
def Obligations.StoreWordThenLoadWord : Prop :=
  ∀ (s : State) (rs2 rs1 : RegIdx) (imm : Word), (s.effAddr rs1 imm).toNat ≤ 4092 →
    ∃ t, exec (.sw rs2 rs1 imm) s = .next t ∧ t.status = s.status ∧
      ∀ (rd base : RegIdx) (off : Word), t.effAddr base off = s.effAddr rs1 imm →
        ∃ u, exec (.lw rd base off) t = .next u ∧ u.status = s.status ∧ RegWritten t u rd (s.reg rs2)

/-- Mixed widths see the same bytes: after a word is stored at `a`, the bytes there are its bytes, and the word at
`a + 1` is its upper three bytes under the old byte above them (20_memory.md section 6). -/
def Obligations.MixedWidthReads : Prop :=
  ∀ (m m' : Memory) (a v : Word), m.writeWord a v = some m' →
    (∀ k : Nat, k < 4 → m'.readByte (a + BitVec.ofNat 32 k) = some (v.extractLsb' (8 * k) 8)) ∧
    (a.toNat + 1 ≤ 4092 → m'.readWord (a + 1) = some (m.read (a.toNat + 4) ++ v.extractLsb' 8 24))

/-! ### The instructions -/

/-- LUI: the words that are LUI, the upper immediate in `rd`, the pc past the instruction, and nothing else
(41_upper_immediate.md rule R100). -/
def Obligations.LuiResult : Prop :=
  (∀ w : Word, w &&& 0x0000007F = 0x00000037 →
    decode w = .instr (.lui (w.extractLsb' 7 5) (w.extractLsb' 12 20 ++ 0#12))) ∧
  ∀ (s : State) (rd : RegIdx) (imm : Word),
    ∃ t, exec (.lui rd imm) s = .next t ∧
      RegWritten s t rd imm ∧ MemKept s t ∧ Completes s t (s.pc + 4) false

/-- JAL: the words that are JAL, the link `pc + 4` in `rd`, the pc at `pc + imm`, and nothing else: no test of the
target (42_control_transfer.md rule R105; sums modulo 2^32). -/
def Obligations.JalResult : Prop :=
  (∀ w : Word, w &&& 0x0000007F = 0x0000006F →
    decode w = .instr (.jal (w.extractLsb' 7 5)
      ((w.extractLsb' 31 1 ++ w.extractLsb' 12 8 ++ w.extractLsb' 20 1 ++ w.extractLsb' 21 10 ++ 0#1 :
        BitVec 21).signExtend 32))) ∧
  ∀ (s : State) (rd : RegIdx) (imm : Word),
    ∃ t, exec (.jal rd imm) s = .next t ∧
      RegWritten s t rd (s.pc + 4) ∧ MemKept s t ∧ Completes s t (s.pc + imm) false

/-- BEQ: the words that are BEQ, the branch taken exactly if the two registers hold the same pattern, and nothing
else changed (42_control_transfer.md rule R106; sums modulo 2^32). -/
def Obligations.BeqResult : Prop :=
  (∀ w : Word, w &&& 0x0000707F = 0x00000063 →
    decode w = .instr (.beq (w.extractLsb' 15 5) (w.extractLsb' 20 5)
      ((w.extractLsb' 31 1 ++ w.extractLsb' 7 1 ++ w.extractLsb' 25 6 ++ w.extractLsb' 8 4 ++ 0#1 :
        BitVec 13).signExtend 32))) ∧
  ∀ (s : State) (rs1 rs2 : RegIdx) (imm : Word),
    ∃ t, exec (.beq rs1 rs2 imm) s = .next t ∧
      RegsKept s t ∧ MemKept s t ∧
      (s.reg rs1 = s.reg rs2 → Completes s t (s.pc + imm) false) ∧
      (s.reg rs1 ≠ s.reg rs2 → Completes s t (s.pc + 4) false)

/-- LB in bounds: the sign-extended byte in `rd`, and nothing else changed (43_loads_stores.md section 2; the sum of
base and displacement modulo 2^32 is decision D3, log entry 6). -/
def Obligations.LbResult : Prop :=
  ∀ (s : State) (rd rs1 : RegIdx) (imm : Word),
    0 ≤ (s.reg rs1 + imm).toInt → (s.reg rs1 + imm).toInt < 4096 →
    ∃ t, exec (.lb rd rs1 imm) s = .next t ∧
      RegWritten s t rd ((s.mem.read (s.reg rs1 + imm).toNat).signExtend 32) ∧
      MemKept s t ∧ Completes s t (s.pc + 4) false

/-- LW in bounds: the little-endian word in `rd`, at any alignment, and nothing else changed (43_loads_stores.md section
2). -/
def Obligations.LwResult : Prop :=
  ∀ (s : State) (rd rs1 : RegIdx) (imm : Word),
    0 ≤ (s.reg rs1 + imm).toInt → (s.reg rs1 + imm).toInt + 4 ≤ 4096 →
    ∃ t, exec (.lw rd rs1 imm) s = .next t ∧
      RegWritten s t rd (s.mem.read ((s.reg rs1 + imm).toNat + 3) ++ s.mem.read ((s.reg rs1 + imm).toNat + 2) ++
        s.mem.read ((s.reg rs1 + imm).toNat + 1) ++ s.mem.read (s.reg rs1 + imm).toNat) ∧
      MemKept s t ∧ Completes s t (s.pc + 4) false

/-- SB in bounds: the low byte of `x[rs2]` at the effective address, and nothing else changed (43_loads_stores.md section
3). -/
def Obligations.SbResult : Prop :=
  ∀ (s : State) (rs2 rs1 : RegIdx) (imm : Word),
    0 ≤ (s.effAddr rs1 imm).toInt → (s.effAddr rs1 imm).toInt < 4096 →
    s.effAddr rs1 imm = s.reg rs1 + imm ∧
    ∃ t, exec (.sb rs2 rs1 imm) s = .next t ∧
      t.mem.read (s.effAddr rs1 imm).toNat = (s.reg rs2).extractLsb' 0 8 ∧
      BytesKeptOutside s t (s.effAddr rs1 imm).toNat 1 ∧
      RegsKept s t ∧ Completes s t (s.pc + 4) false

/-- SW in bounds: the four bytes of `x[rs2]`, least significant lowest, at any alignment, and nothing else changed
(43_loads_stores.md section 3). -/
def Obligations.SwResult : Prop :=
  ∀ (s : State) (rs2 rs1 : RegIdx) (imm : Word),
    0 ≤ (s.effAddr rs1 imm).toInt → (s.effAddr rs1 imm).toInt + 4 ≤ 4096 →
    s.effAddr rs1 imm = s.reg rs1 + imm ∧
    ∃ t, exec (.sw rs2 rs1 imm) s = .next t ∧
      (∀ k, k < 4 → t.mem.read ((s.effAddr rs1 imm).toNat + k) = (s.reg rs2).extractLsb' (8 * k) 8) ∧
      BytesKeptOutside s t (s.effAddr rs1 imm).toNat 4 ∧
      RegsKept s t ∧ Completes s t (s.pc + 4) false

/-- Where a load or store traps: the latch takes the cause, `fault_addr` the rejected address, the pc stays at the
instruction, whatever `rd` is (60_exceptions.md section 2; that the pc stays is decision D8, log entry 9). -/
def Obligations.MemoryViolationHaltsTheRun : Prop :=
  ∀ (s : State) (r rs1 : RegIdx) (imm : Word),
    (¬ (0 ≤ (s.reg rs1 + imm).toInt ∧ (s.reg rs1 + imm).toInt < 4096) →
      (∃ t, exec (.lb r rs1 imm) s = .next t ∧ HaltsWith s t .loadFault (s.reg rs1 + imm)) ∧
      (∃ t, exec (.sb r rs1 imm) s = .next t ∧ HaltsWith s t .storeFault (s.reg rs1 + imm))) ∧
    (¬ (0 ≤ (s.reg rs1 + imm).toInt ∧ (s.reg rs1 + imm).toInt + 4 ≤ 4096) →
      (∃ t, exec (.lw r rs1 imm) s = .next t ∧ HaltsWith s t .loadFault (s.reg rs1 + imm)) ∧
      (∃ t, exec (.sw r rs1 imm) s = .next t ∧ HaltsWith s t .storeFault (s.reg rs1 + imm)))

/-- ADD: the sum in `rd`, and nothing else changed (44_integer_alu.md; that it wraps modulo 2^32 with no trap is
decision D3, log entry 6). -/
def Obligations.AddResult : Prop :=
  ∀ (s : State) (rd rs1 rs2 : RegIdx),
    ∃ t, exec (.add rd rs1 rs2) s = .next t ∧
      RegWritten s t rd (BitVec.ofInt 32 ((s.reg rs1).toInt + (s.reg rs2).toInt)) ∧
      MemKept s t ∧ Completes s t (s.pc + 4) false

/-- XOR: the words that are XOR, the bitwise exclusive or in `rd`, and nothing else changed (44_integer_alu.md rule
R131). -/
def Obligations.XorResult : Prop :=
  (∀ w : Word, w &&& 0xFE00707F = 0x00004033 →
    decode w = .instr (.xor (w.extractLsb' 7 5) (w.extractLsb' 15 5) (w.extractLsb' 20 5))) ∧
  ∀ (s : State) (rd rs1 rs2 : RegIdx),
    ∃ t, exec (.xor rd rs1 rs2) s = .next t ∧
      RegWritten s t rd (s.reg rs1 ^^^ s.reg rs2) ∧ MemKept s t ∧ Completes s t (s.pc + 4) false

/-- ORI: the words that are ORI with the sign-extended immediate, the bitwise or in `rd`, and nothing else changed
(44_integer_alu.md rule R132). -/
def Obligations.OriResult : Prop :=
  (∀ w : Word, w &&& 0x0000707F = 0x00006013 →
    decode w = .instr (.ori (w.extractLsb' 7 5) (w.extractLsb' 15 5) ((w.extractLsb' 20 12).signExtend 32))) ∧
  ∀ (s : State) (rd rs1 : RegIdx) (imm : Word),
    ∃ t, exec (.ori rd rs1 imm) s = .next t ∧
      RegWritten s t rd (s.reg rs1 ||| imm) ∧ MemKept s t ∧ Completes s t (s.pc + 4) false

/-- SRAI: the words that are SRAI, a result whose bits are those of `x[rs1]` moved down by the amount, the sign bit
filling the top, and nothing else changed (44_integer_alu.md rule R133). -/
def Obligations.SraiResult : Prop :=
  (∀ w : Word, w &&& 0xFE00707F = 0x40005013 →
    decode w = .instr (.srai (w.extractLsb' 7 5) (w.extractLsb' 15 5) (w.extractLsb' 20 5))) ∧
  ∀ (s : State) (rd rs1 : RegIdx) (shamt : BitVec 5),
    ∃ t v, exec (.srai rd rs1 shamt) s = .next t ∧ RegWritten s t rd v ∧
      (∀ k, k < 32 → v.getLsbD k =
        if k + shamt.toNat < 32 then (s.reg rs1).getLsbD (k + shamt.toNat) else (s.reg rs1).getLsbD 31) ∧
      v.toInt = (s.reg rs1).toInt / (2 : Int) ^ shamt.toNat ∧
      MemKept s t ∧ Completes s t (s.pc + 4) false

/-- A write to `x0` is lost and the instruction's every other effect happens as with any other destination: the pc, the
memory, the latch, the bounds test of a load (10_state.md section 1; decision D21, log entry 13). -/
def Obligations.DestinationZeroDiscardsOnlyTheWrite : Prop :=
  ∀ (s : State) (i : Instr) (r : RegIdx), destOf i ≠ none →
    ∃ t u, exec (withDest i 0#5) s = .next t ∧ exec (withDest i r) s = .next u ∧
      RegsKept s t ∧ t.pc = u.pc ∧ t.noop = u.noop ∧ MemKept u t ∧ LatchKept u t ∧ LaunchKept u t

/-! ### The words outside the eleven instructions -/

/-- The no-operation words, classes 1 to 4: an opcode that is none of the seven (SYSTEM among them), an unmatched
R-class or I-class combination, a branch other than BEQ. Each step of one changes the pc and nothing else, whatever
the registers hold (40_cycle_and_alu_control.md rule R91, 42_control_transfer.md rule R107, 44_integer_alu.md rules R134,
R135, 60_exceptions.md rule R160). -/
def Obligations.NoOperationWords : Prop :=
  ∀ (s : State) (w : Word), s.runs w →
    (w.extractLsb' 0 7 ∉ [0x37#7, 0x6F#7, 0x63#7, 0x23#7, 0x03#7, 0x13#7, 0x33#7] ∨
      (w.extractLsb' 0 7 = 0x33#7 ∧
        ¬ (w.extractLsb' 12 3 = 0#3 ∧ w.extractLsb' 25 7 = 0x00#7) ∧
        ¬ (w.extractLsb' 12 3 = 4#3 ∧ w.extractLsb' 25 7 = 0x00#7)) ∨
      (w.extractLsb' 0 7 = 0x13#7 ∧ w.extractLsb' 12 3 ≠ 6#3 ∧
        ¬ (w.extractLsb' 12 3 = 5#3 ∧ w.extractLsb' 25 7 = 0x20#7)) ∨
      (w.extractLsb' 0 7 = 0x63#7 ∧ w.extractLsb' 12 3 ≠ 0#3)) →
    ∃ t, step s = .next t ∧ IsNoOperation s t

/-- A load or store opcode with a funct3 other than 0 and 2: the effective address is range-tested; in range the
step is a no-operation, out of range the run halts (43_loads_stores.md section 4; the whole behaviour is decision D10, log
entry 10). -/
def Obligations.OtherWidthWords : Prop :=
  ∀ (s : State) (w : Word), s.runs w → w.extractLsb' 12 3 ≠ 0#3 → w.extractLsb' 12 3 ≠ 2#3 →
    (w.extractLsb' 0 7 = 0x03#7 →
      ∃ t, step s = .next t ∧
        if 0 ≤ (s.reg (w.extractLsb' 15 5) + immI w).toInt ∧ (s.reg (w.extractLsb' 15 5) + immI w).toInt < 4096 then
          IsNoOperation s t
        else HaltsWith s t .loadFault (s.reg (w.extractLsb' 15 5) + immI w)) ∧
    (w.extractLsb' 0 7 = 0x23#7 →
      ∃ t, step s = .next t ∧
        if 0 ≤ (s.reg (w.extractLsb' 15 5) + immS w).toInt ∧ (s.reg (w.extractLsb' 15 5) + immS w).toInt < 4096 then
          IsNoOperation s t
        else HaltsWith s t .storeFault (s.reg (w.extractLsb' 15 5) + immS w))

/-! ### The step -/

/-- Where a step passes the tests and fetches a word, it runs what the word decodes to, with nothing around it
(40_cycle_and_alu_control.md section 1). -/
def Obligations.StepRunsTheDecodedWord : Prop :=
  ∀ (s : State) (w : Word), s.runs w →
    (∀ i, decode w = .instr i → step s = exec i s) ∧ (∀ o, decode w = .other o → step s = execOther o s)

/-- Where the four bytes of a well-formed instruction's encoding stand at the pc, least significant first, inside the
valid length of a running core, the step is that instruction (20_memory.md section 5, 40_cycle_and_alu_control.md section
1). -/
def Obligations.StepRunsTheEncodedInstruction : Prop :=
  ∀ (s : State) (i : Instr), wellFormed i = true → s.status = .running → s.pc.toNat < s.validLength →
    (∀ k, k < 4 → s.imem[s.pc.toNat + k]? = some ((encode i).extractLsb' (8 * k) 8)) → step s = exec i s

/-- The fetched word is the four bytes at the pc, little-endian, whatever the pc's alignment (20_memory.md sections 3 to
5). That a fetch at a pc that is 2 modulo 4 reads `pc` to `pc + 3` is the spec's own decision D7 (log entry 8, unsafe). -/
def Obligations.FetchIsLittleEndian : Prop :=
  ∀ (s : State) (w : Word), s.fetch = some w →
    ∀ k, k < 4 → s.imem[s.pc.toNat + k]? = some (w.extractLsb' (8 * k) 8)

/-- A fetch is valid exactly where `pc + 3 < IMEM_CAPACITY` (20_memory.md section 5, 90_conflicts.md C2; in the naturals
is decision D20). -/
def Obligations.FetchIsValidInsideTheCapacity : Prop :=
  ∀ s : State, (∃ w, s.fetch = some w) ↔ s.pc.toNat + 3 < s.imem.length

/-- A word placed by `withFetchWord` is the next to run, from every state, and the buffer's other bytes stay as they
were: how the model is handed a program (log entry 3; 70_reset_and_hazards.md section 2). -/
def Obligations.PlacedWordIsTheNextToRun : Prop :=
  ∀ (s : State) (w : Word),
    (s.withFetchWord 32 w.toNat).runs w ∧
    ∀ k, k < s.imem.length → ¬ (s.pc.toNat ≤ k ∧ k < s.pc.toNat + 4) →
      (s.withFetchWord 32 w.toNat).imem[k]? = s.imem[k]?

/-- A step of a core that is not `Running` changes nothing (40_cycle_and_alu_control.md section 6; decision D9, log
entry 7). -/
def Obligations.HaltedStepChangesNothing : Prop :=
  ∀ s : State, s.status ≠ .running → step s = .next s

/-- A running core whose pc is at or beyond `VALID_LENGTH` completes, and nothing changes but the latch
(60_exceptions.md section 2; that this test comes first is decision D6, log entry 7). -/
def Obligations.CompletionAtTheValidLength : Prop :=
  ∀ s : State, s.status = .running → s.validLength ≤ s.pc.toNat →
    step s = .next { s with status := .completed }

/-- A running core whose pc is inside `VALID_LENGTH` and whose fetch would pass the capacity halts with `FetchFault`,
and nothing else changes (60_exceptions.md rule R152). -/
def Obligations.FetchBoundViolationHalts : Prop :=
  ∀ s : State, s.status = .running → s.pc.toNat < s.validLength → s.imem.length ≤ s.pc.toNat + 3 →
    step s = .next { s with status := .fetchFault }

/-- The core never stops answering: every step and every instruction gives a next state from every state; no word
is illegal (30_encoding.md section 4, 60_exceptions.md section 1). -/
def Obligations.EveryStepAnswersANextState : Prop :=
  (∀ s : State, ∃ t, step s = .next t) ∧ ∀ (i : Instr) (s : State), ∃ t, exec i s = .next t

/-- At most one register changes in a step, the one `rd` names, only by the eight instructions that have one and,
for a load, only in bounds; and `x0` reads zero after it (40_cycle_and_alu_control.md rule R89). -/
def Obligations.OnlyTheDestinationRegisterChanges : Prop :=
  ∀ (s t : State) (r : RegIdx), step s = .next t →
    t.reg 0#5 = 0 ∧
    (t.reg r ≠ s.reg r →
      r ≠ 0#5 ∧ ∃ w i, s.runs w ∧ decode w = .instr i ∧ destOf i = some r ∧
        (∀ rd rs1 imm, i = .lb rd rs1 imm → inBounds (s.effAddr rs1 imm) .byte = true) ∧
        (∀ rd rs1 imm, i = .lw rd rs1 imm → inBounds (s.effAddr rs1 imm) .word = true) ∧
        (∀ q, q ≠ r → t.reg q = s.reg q))

/-- A byte of data memory changes only by an SB or SW in bounds that stores to it, and to the byte stored
(10_state.md section 3, 20_memory.md section 2). -/
def Obligations.OnlyStoresChangeDataMemory : Prop :=
  ∀ (s t : State) (a : Nat), step s = .next t → t.mem.read a ≠ s.mem.read a →
    ∃ w rs2 rs1 imm, s.runs w ∧
      ((decode w = .instr (.sb rs2 rs1 imm) ∧ inBounds (s.effAddr rs1 imm) .byte = true ∧
          a = (s.effAddr rs1 imm).toNat ∧ t.mem.read a = (s.reg rs2).extractLsb' 0 8) ∨
       (decode w = .instr (.sw rs2 rs1 imm) ∧ inBounds (s.effAddr rs1 imm) .word = true ∧
          ∃ k, k < 4 ∧ a = (s.effAddr rs1 imm).toNat + k ∧ t.mem.read a = (s.reg rs2).extractLsb' (8 * k) 8))

/-- Default next pc: after a step that executes a word and goes on, the pc is `pc + 4` unless the word is a JAL or a
taken BEQ, which give `pc + imm` (40_cycle_and_alu_control.md rule R85; modulo 2^32). -/
def Obligations.OnlyJalAndTakenBeqRedirectThePc : Prop :=
  ∀ (s t : State) (w : Word), s.runs w → step s = .next t → t.status = .running →
    (∀ rd imm, decode w = .instr (.jal rd imm) → t.pc = s.pc + imm) ∧
    (∀ rs1 rs2 imm, decode w = .instr (.beq rs1 rs2 imm) →
      t.pc = if s.reg rs1 = s.reg rs2 then s.pc + imm else s.pc + 4) ∧
    ((∀ rd imm, decode w ≠ .instr (.jal rd imm)) → (∀ rs1 rs2 imm, decode w ≠ .instr (.beq rs1 rs2 imm)) →
      t.pc = s.pc + 4)

/-- The four ways a run ends and when each does, from the bits of the word alone (60_exceptions.md section 2). It rests
on the decisions D6 (order of the tests, log entry 7), D8 (the latch, log entry 9), D10 (other widths, log entry 10) and D11
(funct3 of a word access, log entry 11). -/
def Obligations.HaltCauses : Prop :=
  ∀ s t : State, s.status = .running → step s = .next t →
    (t.status = .completed ↔ s.validLength ≤ s.pc.toNat) ∧
    (t.status = .fetchFault ↔ s.pc.toNat < s.validLength ∧ s.imem.length ≤ s.pc.toNat + 3) ∧
    (t.status = .loadFault ↔ ∃ w, s.runs w ∧ w.extractLsb' 0 7 = 0x03#7 ∧
      (¬ (0 ≤ (s.reg (w.extractLsb' 15 5) + immI w).toInt ∧ (s.reg (w.extractLsb' 15 5) + immI w).toInt < 4096) ∨
        (w.extractLsb' 12 3 = 2#3 ∧ (s.reg (w.extractLsb' 15 5) + immI w).toInt + 4 > 4096))) ∧
    (t.status = .storeFault ↔ ∃ w, s.runs w ∧ w.extractLsb' 0 7 = 0x23#7 ∧
      (¬ (0 ≤ (s.reg (w.extractLsb' 15 5) + immS w).toInt ∧ (s.reg (w.extractLsb' 15 5) + immS w).toInt < 4096) ∨
        (w.extractLsb' 12 3 = 2#3 ∧ (s.reg (w.extractLsb' 15 5) + immS w).toInt + 4 > 4096))) ∧
    (∀ w, s.runs w → t.status = .loadFault → t.faultAddr = s.reg (w.extractLsb' 15 5) + immI w) ∧
    (∀ w, s.runs w → t.status = .storeFault → t.faultAddr = s.reg (w.extractLsb' 15 5) + immS w)

/-- A halt is precise: the step that ends the run changes nothing but the latch and, for a load or store fault,
`fault_addr` (60_exceptions.md section 5). That the pc stays at the instruction after a load or store fault is decision D8
alone (log entry 9, unsafe); that `noop` keeps its value is the model's deduction (DEDUCED, log entry 12). -/
def Obligations.HaltIsPrecise : Prop :=
  ∀ s t : State, s.status = .running → step s = .next t → t.status ≠ .running →
    RegsKept s t ∧ MemKept s t ∧ t.pc = s.pc ∧ t.noop = s.noop ∧ LaunchKept s t ∧
    (t.status ≠ .loadFault → t.status ≠ .storeFault → t.faultAddr = s.faultAddr)

/-- The instruction buffer and the valid length never change in a step, so no store is ever fetched (20_memory.md
section 8; decision D16, log entry 14). -/
def Obligations.StepKeepsTheLaunchInputs : Prop :=
  ∀ s t : State, step s = .next t → LaunchKept s t

/-- Data memory is read only by loads: unless the step executes an LB or LW, two cores that differ in data memory
alone do the same to everything else (10_state.md section 3). -/
def Obligations.DataMemoryIsSeenOnlyByLoads : Prop :=
  ∀ (s : State) (m : Memory),
    (∀ w i, s.runs w → decode w = .instr i → isLoad i = false) →
    ∃ t u, step s = .next t ∧ step { s with mem := m } = .next u ∧
      RegsKept t u ∧ u.pc = t.pc ∧ u.noop = t.noop ∧ LatchKept t u ∧ LaunchKept t u

/-! ### Invariants -/

/-- Every step keeps the data memory in its canonical form, with nothing listed outside addresses 0 to 4095
(20_memory.md section 7). -/
def Obligations.StepKeepsTheMemoryForm : Prop :=
  ∀ s t : State, s.mem.wf → step s = .next t → t.mem.wf

/-- Every step keeps the pc even: every default, jump and branch adds an even number (10_state.md section 2). -/
def Obligations.StepKeepsThePcEven : Prop :=
  ∀ s t : State, s.pcEven → step s = .next t → t.pcEven

/-- Every step keeps the status latch truthful about the state that halted (60_exceptions.md section 2; decisions D6 and
D8, log entries 7 and 9). -/
def Obligations.StepKeepsTheLatchTruthful : Prop :=
  ∀ s t : State, s.latchTruthful → step s = .next t → t.latchTruthful

/-- Every step keeps register slot 0 at zero: no instruction writes it (10_state.md section 1; log entry 15). -/
def Obligations.StepKeepsSlotZero : Prop :=
  ∀ s t : State, s.slotZero → step s = .next t → t.slotZero

/-- The reset state meets every invariant, and so does every launch within the driver's premises
(10_state.md section 7, 70_reset_and_hazards.md section 2). -/
def Obligations.ResetMeetsTheInvariants : Prop :=
  (State.reset.mem.wf ∧ State.reset.pcEven ∧ State.reset.latchTruthful ∧ State.reset.slotZero ∧
    State.reset.launchOk) ∧
  ∀ (imem : List Byte) (n : Nat), n ≤ imem.length → imem.length ≤ 4294967296 →
    (State.launch imem n).mem.wf ∧ (State.launch imem n).pcEven ∧ (State.launch imem n).latchTruthful ∧
      (State.launch imem n).slotZero ∧ (State.launch imem n).launchOk

/-! ### Reset and the run -/

/-- What reset leaves: every register and every byte of data memory zero; the pc zero (decision D2, log entry 5), the latch
`Running` (decision D8, log entry 9) and `noop` 0 (decision D13, log entry 12). `fault_addr` is unspecified and not
stated (10_state.md section 7). -/
def Obligations.ResetValues : Prop :=
  (∀ r, State.reset.reg r = 0) ∧ (∀ a, State.reset.mem.read a = 0) ∧
    State.reset.pc = 0 ∧ State.reset.status = .running ∧ State.reset.noop = false

/-- The reset input, from any state: the values of reset, with the driver's buffer and length as they were
(70_reset_and_hazards.md section 1; decisions D12 and D26, log entry 19). -/
def Obligations.ResetInputRestoresEveryState : Prop :=
  ∀ s : State, (∀ r, s.rst.reg r = 0) ∧ (∀ a, s.rst.mem.read a = 0) ∧ s.rst.pc = 0 ∧ s.rst.status = .running ∧
    s.rst.noop = false ∧ s.rst.imem = s.imem ∧ s.rst.validLength = s.validLength

/-- A run that has ended stays ended in the same state, however many more steps the core makes; with `n = 0`, any number
of steps from a halted state answers that state (60_exceptions.md section 5; that a step of a halted core changes nothing
is decision D9, log entry 7). -/
def Obligations.EndedRunStaysEnded : Prop :=
  ∀ (n k : Nat) (s t : State), Host.Core.run Sys2Proof.core n s = .next t → t.status ≠ .running →
    Host.Core.run Sys2Proof.core (n + k) s = .next t

/-- A run leaves the launch inputs alone and keeps every invariant, so what a driver reads after it is the state the
program's steps made (20_memory.md section 8, 40_cycle_and_alu_control.md section 6; decision D16, log entry 14). -/
def Obligations.RunKeepsTheInvariants : Prop :=
  ∀ (n : Nat) (s : State), s.mem.wf → s.pcEven → s.latchTruthful → s.slotZero → s.launchOk →
    (runFuel n s).mem.wf ∧ (runFuel n s).pcEven ∧ (runFuel n s).latchTruthful ∧ (runFuel n s).slotZero ∧
      (runFuel n s).launchOk ∧ LaunchKept s (runFuel n s)

/-- The driver's run loop is that many steps of the core: it stops stepping once the latch is not `Running`, and the
steps it leaves out change nothing (40_cycle_and_alu_control.md section 6; decision D9, log entry 7). -/
def Obligations.RunLoopIsIteratedSteps : Prop :=
  ∀ (n : Nat) (s : State), Host.Core.run Sys2Proof.core n s = .next (runFuel n s)
end

