-- ==== Sys2Proof/Laws/State.lean ====
section
/-! SUPPORT. One lemma per field per state update, so that no later proof unfolds a record update. -/

namespace Sys2Proof.Machine

@[simp] theorem State.setReg_pc (s : State) (i : RegIdx) (v : Word) : (s.setReg i v).pc = s.pc := by
  unfold State.setReg; split <;> rfl
@[simp] theorem State.setReg_mem (s : State) (i : RegIdx) (v : Word) : (s.setReg i v).mem = s.mem := by
  unfold State.setReg; split <;> rfl
@[simp] theorem State.setReg_status (s : State) (i : RegIdx) (v : Word) : (s.setReg i v).status = s.status := by
  unfold State.setReg; split <;> rfl
@[simp] theorem State.setReg_faultAddr (s : State) (i : RegIdx) (v : Word) :
    (s.setReg i v).faultAddr = s.faultAddr := by
  unfold State.setReg; split <;> rfl
@[simp] theorem State.setReg_noop (s : State) (i : RegIdx) (v : Word) : (s.setReg i v).noop = s.noop := by
  unfold State.setReg; split <;> rfl
@[simp] theorem State.setReg_imem (s : State) (i : RegIdx) (v : Word) : (s.setReg i v).imem = s.imem := by
  unfold State.setReg; split <;> rfl
@[simp] theorem State.setReg_validLength (s : State) (i : RegIdx) (v : Word) :
    (s.setReg i v).validLength = s.validLength := by
  unfold State.setReg; split <;> rfl

/-- `x0` reads zero in every state (10_state.md rule R11). -/
@[simp] theorem State.reg_zero (s : State) : s.reg 0#5 = 0 := rfl

/-- What a register reads after a write (10_state.md rule R11). -/
theorem State.reg_setReg (s : State) (i r : RegIdx) (v : Word) :
    (s.setReg i v).reg r = if r = 0#5 then 0 else if r = i then v else s.reg r := by
  unfold State.setReg State.reg
  by_cases hr : r = 0#5
  · simp [hr]
  · by_cases hi : i = 0#5
    · have : r ≠ i := fun h => hr (h.trans hi)
      simp [hr, hi]
    · by_cases h : r = i
      · subst h; simp [hr]
      · have hn : i.toNat ≠ r.toNat := fun e => h (BitVec.eq_of_toNat_eq e.symm)
        simp [hr, hi, h, hn]

/-- Slot 0 keeps its content: a write to `x0` is suppressed. -/
theorem State.setReg_slot0 (s : State) (i : RegIdx) (v : Word) :
    (s.setReg i v).regs[0]'(by decide) = s.regs[0]'(by decide) := by
  unfold State.setReg
  by_cases hi : i = 0#5
  · simp [hi]
  · have hn : i.toNat ≠ 0 := fun e => hi (BitVec.eq_of_toNat_eq (by simpa using e))
    simp [hi, hn]

/-- Registers depend on the register file alone. -/
theorem State.reg_congr {s t : State} (h : t.regs = s.regs) (r : RegIdx) : t.reg r = s.reg r := by
  simp [State.reg, h]

@[simp] theorem State.retire_regs (s : State) (p : Word) (b : Bool) : (s.retire p b).regs = s.regs := rfl
@[simp] theorem State.retire_reg (s : State) (p : Word) (b : Bool) (r : RegIdx) : (s.retire p b).reg r = s.reg r := rfl
@[simp] theorem State.retire_pc (s : State) (p : Word) (b : Bool) : (s.retire p b).pc = p := rfl
@[simp] theorem State.retire_mem (s : State) (p : Word) (b : Bool) : (s.retire p b).mem = s.mem := rfl
@[simp] theorem State.retire_status (s : State) (p : Word) (b : Bool) : (s.retire p b).status = s.status := rfl
@[simp] theorem State.retire_faultAddr (s : State) (p : Word) (b : Bool) : (s.retire p b).faultAddr = s.faultAddr := rfl
@[simp] theorem State.retire_noop (s : State) (p : Word) (b : Bool) : (s.retire p b).noop = b := rfl
@[simp] theorem State.retire_imem (s : State) (p : Word) (b : Bool) : (s.retire p b).imem = s.imem := rfl
@[simp] theorem State.retire_validLength (s : State) (p : Word) (b : Bool) :
    (s.retire p b).validLength = s.validLength := rfl

@[simp] theorem State.raise_regs (s : State) (c : Cause) : (s.raise c).regs = s.regs := by
  rcases c with _ | ⟨_ | _, _⟩ <;> rfl
@[simp] theorem State.raise_reg (s : State) (c : Cause) (r : RegIdx) : (s.raise c).reg r = s.reg r :=
  State.reg_congr (s.raise_regs c) r
@[simp] theorem State.raise_pc (s : State) (c : Cause) : (s.raise c).pc = s.pc := by
  rcases c with _ | ⟨_ | _, _⟩ <;> rfl
@[simp] theorem State.raise_mem (s : State) (c : Cause) : (s.raise c).mem = s.mem := by
  rcases c with _ | ⟨_ | _, _⟩ <;> rfl
@[simp] theorem State.raise_noop (s : State) (c : Cause) : (s.raise c).noop = s.noop := by
  rcases c with _ | ⟨_ | _, _⟩ <;> rfl
@[simp] theorem State.raise_imem (s : State) (c : Cause) : (s.raise c).imem = s.imem := by
  rcases c with _ | ⟨_ | _, _⟩ <;> rfl
@[simp] theorem State.raise_validLength (s : State) (c : Cause) : (s.raise c).validLength = s.validLength := by
  rcases c with _ | ⟨_ | _, _⟩ <;> rfl
@[simp] theorem State.raise_load_status (s : State) (ea : Word) :
    (s.raise (.memBound .load ea)).status = .loadFault := rfl
@[simp] theorem State.raise_store_status (s : State) (ea : Word) :
    (s.raise (.memBound .store ea)).status = .storeFault := rfl
@[simp] theorem State.raise_fetch_status (s : State) : (s.raise .fetchBound).status = .fetchFault := rfl
@[simp] theorem State.raise_fetch_faultAddr (s : State) : (s.raise .fetchBound).faultAddr = s.faultAddr := rfl
@[simp] theorem State.raise_mem_faultAddr (s : State) (k : AccessKind) (ea : Word) :
    (s.raise (.memBound k ea)).faultAddr = ea := by
  cases k <;> rfl

@[simp] theorem State.complete_regs (s : State) : s.complete.regs = s.regs := rfl
@[simp] theorem State.complete_reg (s : State) (r : RegIdx) : s.complete.reg r = s.reg r := rfl
@[simp] theorem State.complete_pc (s : State) : s.complete.pc = s.pc := rfl
@[simp] theorem State.complete_mem (s : State) : s.complete.mem = s.mem := rfl
@[simp] theorem State.complete_status (s : State) : s.complete.status = .completed := rfl
@[simp] theorem State.complete_faultAddr (s : State) : s.complete.faultAddr = s.faultAddr := rfl
@[simp] theorem State.complete_noop (s : State) : s.complete.noop = s.noop := rfl
@[simp] theorem State.complete_imem (s : State) : s.complete.imem = s.imem := rfl
@[simp] theorem State.complete_validLength (s : State) : s.complete.validLength = s.validLength := rfl

@[simp] theorem State.withFetchWord_regs (s : State) (n w : Nat) : (s.withFetchWord n w).regs = s.regs := rfl
@[simp] theorem State.withFetchWord_reg (s : State) (n w : Nat) (r : RegIdx) :
    (s.withFetchWord n w).reg r = s.reg r := rfl
@[simp] theorem State.withFetchWord_pc (s : State) (n w : Nat) : (s.withFetchWord n w).pc = s.pc := rfl
@[simp] theorem State.withFetchWord_mem (s : State) (n w : Nat) : (s.withFetchWord n w).mem = s.mem := rfl
@[simp] theorem State.withFetchWord_status (s : State) (n w : Nat) : (s.withFetchWord n w).status = .running := rfl
@[simp] theorem State.withFetchWord_faultAddr (s : State) (n w : Nat) :
    (s.withFetchWord n w).faultAddr = s.faultAddr := rfl
@[simp] theorem State.withFetchWord_noop (s : State) (n w : Nat) : (s.withFetchWord n w).noop = s.noop := rfl

@[simp] theorem State.launch_imem (b : List Byte) (n : Nat) : (State.launch b n).imem = b := rfl
@[simp] theorem State.launch_validLength (b : List Byte) (n : Nat) : (State.launch b n).validLength = n := rfl

end Sys2Proof.Machine
end

