-- ==== Sys2Proof/Laws/Ops.lean ====
section
/-! SUPPORT. One lemma per shared operation: everything it can do, to be cited where the operation is called. -/

namespace Sys2Proof.Machine

theorem bytes_of_wordOfBytes (b0 b1 b2 b3 : Byte) :
    byteOfWord (wordOfBytes b0 b1 b2 b3) 0 = b0 ∧ byteOfWord (wordOfBytes b0 b1 b2 b3) 1 = b1 ∧
      byteOfWord (wordOfBytes b0 b1 b2 b3) 2 = b2 ∧ byteOfWord (wordOfBytes b0 b1 b2 b3) 3 = b3 := by
  refine ⟨?_, ?_, ?_, ?_⟩ <;>
  · apply BitVec.eq_of_getLsbD_eq
    intro j hj
    simp only [byteOfWord, wordOfBytes, BitVec.getLsbD_extractLsb', BitVec.getLsbD_append]
    interval_cases j <;> simp

theorem wordOfBytes_bytes (v : Word) :
    wordOfBytes (byteOfWord v 0) (byteOfWord v 1) (byteOfWord v 2) (byteOfWord v 3) = v := by
  apply BitVec.eq_of_getLsbD_eq
  intro j hj
  simp only [byteOfWord, wordOfBytes, BitVec.getLsbD_extractLsb', BitVec.getLsbD_append]
  interval_cases j <;> simp

/-! ### The bounds rule -/

theorem inRange_iff (a : Word) : inRange a = true ↔ 0 ≤ a.toInt ∧ a.toInt < 4096 := by
  exact decide_eq_true_iff (p := 0 ≤ a.toInt ∧ a.toInt < 4096)

theorem spanFits_iff (a : Word) : spanFits a = true ↔ a.toInt + 4 ≤ 4096 := by
  exact decide_eq_true_iff (p := a.toInt + 4 ≤ 4096)

theorem inBounds_byte_iff (a : Word) : inBounds a .byte = true ↔ 0 ≤ a.toInt ∧ a.toInt < 4096 := inRange_iff a

theorem inBounds_word_iff (a : Word) :
    inBounds a .word = true ↔ (0 ≤ a.toInt ∧ a.toInt < 4096) ∧ a.toInt + 4 ≤ 4096 := by
  simp [inBounds, inRange_iff, spanFits_iff]

/-- A word access in bounds is in bounds for a byte. -/
theorem inBounds_byte_of_word {a : Word} (h : inBounds a .word = true) : inBounds a .byte = true :=
  (inBounds_byte_iff a).mpr ((inBounds_word_iff a).mp h).1

/-- A pattern whose signed reading is not negative has that reading as its unsigned one. -/
theorem toInt_eq_toNat_of_nonneg {a : Word} (h : 0 ≤ a.toInt) : a.toInt = a.toNat := by
  have := BitVec.toInt_eq_toNat_cond a
  have := a.isLt
  split at * <;> omega

/-! ### Reads and writes of data memory -/

theorem Memory.readByte_of_inBounds {m : Memory} {a : Word} (h : inBounds a .byte = true) :
    m.readByte a = some (m.read a.toNat) := by
  simp [Memory.readByte, h]

theorem Memory.readByte_of_rejected {m : Memory} {a : Word} (h : inBounds a .byte = false) : m.readByte a = none := by
  simp [Memory.readByte, h]

theorem Memory.readWord_of_inBounds {m : Memory} {a : Word} (h : inBounds a .word = true) :
    m.readWord a = some (wordOfBytes (m.read a.toNat) (m.read (a.toNat + 1)) (m.read (a.toNat + 2))
      (m.read (a.toNat + 3))) := by
  simp [Memory.readWord, h]

theorem Memory.readWord_of_rejected {m : Memory} {a : Word} (h : inBounds a .word = false) : m.readWord a = none := by
  simp [Memory.readWord, h]

theorem Memory.writeByte_of_rejected {m : Memory} {a v : Word} (h : inBounds a .byte = false) :
    m.writeByte a v = none := by
  simp [Memory.writeByte, h]

theorem Memory.writeWord_of_rejected {m : Memory} {a v : Word} (h : inBounds a .word = false) :
    m.writeWord a v = none := by
  simp [Memory.writeWord, h]

/-- An accepted byte store changes the one byte and keeps the canonical form. -/
theorem Memory.writeByte_of_inBounds {m : Memory} {a : Word} (v : Word) (h : inBounds a .byte = true) :
    ∃ m', m.writeByte a v = some m' ∧ (m.wf → m'.wf) ∧
      ∀ x, m'.read x = if x = a.toNat then byteOfWord v 0 else m.read x := by
  refine ⟨m.write a.toNat (byteOfWord v 0), by simp [Memory.writeByte, h], fun hm => ?_, fun x => Memory.read_write ..⟩
  have h' := (inBounds_byte_iff a).mp h
  have := toInt_eq_toNat_of_nonneg h'.1
  exact Memory.wf_write hm (by unfold Config.dmemCapacity; omega) _

/-- An accepted word store changes its four bytes, least significant first, and keeps the canonical form. -/
theorem Memory.writeWord_of_inBounds {m : Memory} {a : Word} (v : Word) (h : inBounds a .word = true) :
    ∃ m', m.writeWord a v = some m' ∧ (m.wf → m'.wf) ∧
      ∀ x, m'.read x = if a.toNat ≤ x ∧ x < a.toNat + 4 then byteOfWord v (x - a.toNat) else m.read x := by
  refine ⟨_, by unfold Memory.writeWord; rw [if_pos h], fun hm => ?_, fun x => ?_⟩
  · have h' := (inBounds_word_iff a).mp h
    have := toInt_eq_toNat_of_nonneg h'.1.1
    refine Memory.wf_write (Memory.wf_write (Memory.wf_write (Memory.wf_write hm ?_ _) ?_ _) ?_ _) ?_ _ <;>
    · unfold Config.dmemCapacity; omega
  · simp only [Memory.read_write]
    by_cases h3 : x = a.toNat + 3
    · simp [h3]
    · by_cases h2 : x = a.toNat + 2
      · simp [h2]
      · by_cases h1 : x = a.toNat + 1
        · simp [h1]
        · by_cases h0 : x = a.toNat
          · simp [h0]
          · have : ¬ (a.toNat ≤ x ∧ x < a.toNat + 4) := by omega
            simp [h0, h1, h2, h3, this]

/-! ### The ends of a step -/

/-- A load either writes `rd` and goes on, or raises the violation and changes nothing else. -/
theorem State.finishLoad_cases (s : State) (rd : RegIdx) (ea : Word) (v : Option Word) :
    (∃ x, v = some x ∧ s.finishLoad rd ea v = (s.setReg rd x).retire s.nextPc false) ∨
      (v = none ∧ s.finishLoad rd ea v = s.raise (.memBound .load ea)) := by
  cases v with
  | none => exact .inr ⟨rfl, rfl⟩
  | some x => exact .inl ⟨x, rfl, rfl⟩

/-- A store either replaces the memory and goes on, or raises the violation and changes nothing else. -/
theorem State.finishStore_cases (s : State) (ea : Word) (m : Option Memory) :
    (∃ m', m = some m' ∧ s.finishStore ea m = State.retire { s with mem := m' } s.nextPc false) ∨
      (m = none ∧ s.finishStore ea m = s.raise (.memBound .store ea)) := by
  cases m with
  | none => exact .inr ⟨rfl, rfl⟩
  | some m' => exact .inl ⟨m', rfl, rfl⟩

/-- An access of another width is a no-operation in range and a violation out of it. -/
theorem State.otherWidth_cases (s : State) (k : AccessKind) (ea : Word) :
    (inRange ea = true ∧ s.otherWidth k ea = s.retire s.nextPc true) ∨
      (inRange ea = false ∧ s.otherWidth k ea = s.raise (.memBound k ea)) := by
  unfold State.otherWidth
  cases h : inRange ea
  · exact .inr ⟨rfl, rfl⟩
  · exact .inl ⟨rfl, rfl⟩

/-- The tests before the fetch end the step in exactly two ways (40_cycle_and_alu_control.md rule R81). -/
theorem State.endedBeforeFetch_eq_none {s : State} :
    s.endedBeforeFetch = none ↔ s.status = .running ∧ s.pc.toNat < s.validLength := by
  unfold State.endedBeforeFetch
  split
  · split
    · simp; omega
    · simp_all
  · simp_all

theorem State.endedBeforeFetch_eq_some {s t : State} :
    s.endedBeforeFetch = some t ↔
      (s.status ≠ .running ∧ t = s) ∨ (s.status = .running ∧ s.validLength ≤ s.pc.toNat ∧ t = s.complete) := by
  unfold State.endedBeforeFetch
  split
  · split
    · simp_all [eq_comm]
    · simp_all
  · simp_all [eq_comm]

/-- The fetch answers exactly where its four bytes exist (20_memory.md rule R38). -/
theorem State.fetch_eq_none {s : State} : s.fetch = none ↔ s.imem.length ≤ s.pc.toNat + 3 := by
  unfold State.fetch
  split
  · simp; omega
  · simp; omega

end Sys2Proof.Machine
end

