-- ==== Sys2Proof/Laws/PerInstr.lean ====
section
/-! SUPPORT. Statements made for every instruction, one lemma per constructor. -/

namespace Sys2Proof.Laws

/-- The mask of an instruction's row (30_encoding.md rule R64). -/
def maskOf : Instr → Word
  | .lui _ _ => 0x0000007F
  | .jal _ _ => 0x0000007F
  | .beq _ _ _ => 0x0000707F
  | .lb _ _ _ => 0x0000707F
  | .lw _ _ _ => 0x0000707F
  | .sb _ _ _ => 0x0000707F
  | .sw _ _ _ => 0x0000707F
  | .add _ _ _ => 0xFE00707F
  | .xor _ _ _ => 0xFE00707F
  | .ori _ _ _ => 0x0000707F
  | .srai _ _ _ => 0xFE00707F

/-- The match of an instruction's row (30_encoding.md rule R64). -/
def matchOf : Instr → Word
  | .lui _ _ => 0x00000037
  | .jal _ _ => 0x0000006F
  | .beq _ _ _ => 0x00000063
  | .lb _ _ _ => 0x00000003
  | .lw _ _ _ => 0x00002003
  | .sb _ _ _ => 0x00000023
  | .sw _ _ _ => 0x00002023
  | .add _ _ _ => 0x00000033
  | .xor _ _ _ => 0x00004033
  | .ori _ _ _ => 0x00006013
  | .srai _ _ _ => 0x40005013

namespace Encoding

/-- The instruction's encoding is selected by its row's mask and match (30_encoding.md rule R64). -/
def Statement (i : Instr) : Prop := encode i &&& maskOf i = matchOf i

theorem lui (rd : RegIdx) (imm : Word) : Statement (.lui rd imm) := by
  apply BitVec.eq_of_getLsbD_eq
  intro j hj
  simp only [encode, encodeU, maskOf, matchOf, BitVec.getLsbD_and, BitVec.getLsbD_append]
  interval_cases j <;> simp

theorem jal (rd : RegIdx) (imm : Word) : Statement (.jal rd imm) := by
  apply BitVec.eq_of_getLsbD_eq
  intro j hj
  simp only [encode, encodeJ, maskOf, matchOf, BitVec.getLsbD_and, BitVec.getLsbD_append]
  interval_cases j <;> simp

theorem beq (rs1 rs2 : RegIdx) (imm : Word) : Statement (.beq rs1 rs2 imm) := by
  apply BitVec.eq_of_getLsbD_eq
  intro j hj
  simp only [encode, encodeB, maskOf, matchOf, BitVec.getLsbD_and, BitVec.getLsbD_append]
  interval_cases j <;> simp

theorem lb (rd rs1 : RegIdx) (imm : Word) : Statement (.lb rd rs1 imm) := by
  apply BitVec.eq_of_getLsbD_eq
  intro j hj
  simp only [encode, encodeI, maskOf, matchOf, BitVec.getLsbD_and, BitVec.getLsbD_append]
  interval_cases j <;> simp

theorem lw (rd rs1 : RegIdx) (imm : Word) : Statement (.lw rd rs1 imm) := by
  apply BitVec.eq_of_getLsbD_eq
  intro j hj
  simp only [encode, encodeI, maskOf, matchOf, BitVec.getLsbD_and, BitVec.getLsbD_append]
  interval_cases j <;> simp

theorem sb (rs2 rs1 : RegIdx) (imm : Word) : Statement (.sb rs2 rs1 imm) := by
  apply BitVec.eq_of_getLsbD_eq
  intro j hj
  simp only [encode, encodeS, maskOf, matchOf, BitVec.getLsbD_and, BitVec.getLsbD_append]
  interval_cases j <;> simp

theorem sw (rs2 rs1 : RegIdx) (imm : Word) : Statement (.sw rs2 rs1 imm) := by
  apply BitVec.eq_of_getLsbD_eq
  intro j hj
  simp only [encode, encodeS, maskOf, matchOf, BitVec.getLsbD_and, BitVec.getLsbD_append]
  interval_cases j <;> simp

theorem add (rd rs1 rs2 : RegIdx) : Statement (.add rd rs1 rs2) := by
  apply BitVec.eq_of_getLsbD_eq
  intro j hj
  simp only [encode, encodeR, maskOf, matchOf, BitVec.getLsbD_and, BitVec.getLsbD_append]
  interval_cases j <;> simp

theorem xor (rd rs1 rs2 : RegIdx) : Statement (.xor rd rs1 rs2) := by
  apply BitVec.eq_of_getLsbD_eq
  intro j hj
  simp only [encode, encodeR, maskOf, matchOf, BitVec.getLsbD_and, BitVec.getLsbD_append]
  interval_cases j <;> simp

theorem ori (rd rs1 : RegIdx) (imm : Word) : Statement (.ori rd rs1 imm) := by
  apply BitVec.eq_of_getLsbD_eq
  intro j hj
  simp only [encode, encodeI, maskOf, matchOf, BitVec.getLsbD_and, BitVec.getLsbD_append]
  interval_cases j <;> simp

theorem srai (rd rs1 : RegIdx) (shamt : BitVec 5) : Statement (.srai rd rs1 shamt) := by
  apply BitVec.eq_of_getLsbD_eq
  intro j hj
  simp only [encode, encodeR, maskOf, matchOf, BitVec.getLsbD_and, BitVec.getLsbD_append]
  interval_cases j <;> simp

end Encoding

end Sys2Proof.Laws
end

