-- ==== Sys2Proof/Laws/Step.lean ====
section
/-! SUPPORT. What one step can do, said once, and what a run of one more step is. -/

namespace Sys2Proof.Machine

/-- Every way a step answers a next state (40_cycle_and_alu_control.md rules R80, R81, R93, R96). -/
theorem step_cases {s t : State} (h : step s = .next t) :
    (s.status ≠ .running ∧ t = s) ∨
    (s.status = .running ∧ s.validLength ≤ s.pc.toNat ∧ t = s.complete) ∨
    (s.status = .running ∧ s.pc.toNat < s.validLength ∧ s.imem.length ≤ s.pc.toNat + 3 ∧ t = s.raise .fetchBound) ∨
    (∃ w i, s.runs w ∧ decode w = .instr i ∧ exec i s = .next t) ∨
    (∃ w o, s.runs w ∧ decode w = .other o ∧ execOther o s = .next t) := by
  unfold step at h
  cases hb : s.endedBeforeFetch with
  | some u =>
    simp only [hb, Host.Outcome.next.injEq] at h
    subst h
    rcases State.endedBeforeFetch_eq_some.mp hb with h | h
    · exact .inl h
    · exact .inr (.inl h)
  | none =>
    obtain ⟨hr, hv⟩ := State.endedBeforeFetch_eq_none.mp hb
    cases hf : s.fetch with
    | none =>
      simp only [hb, hf, Host.Outcome.next.injEq] at h
      exact .inr (.inr (.inl ⟨hr, hv, State.fetch_eq_none.mp hf, h.symm⟩))
    | some w =>
      simp only [hb, hf] at h
      cases hd : decode w with
      | instr i => exact .inr (.inr (.inr (.inl ⟨w, i, ⟨hr, hv, hf⟩, hd, by simpa [hd] using h⟩)))
      | other o => exact .inr (.inr (.inr (.inr ⟨w, o, ⟨hr, hv, hf⟩, hd, by simpa [hd] using h⟩)))

/-- What `step` is where it executes a word. -/
theorem step_of_runs {s : State} {w : Word} (h : s.runs w) :
    step s = match decode w with
      | .instr i => exec i s
      | .other o => execOther o s := by
  cases hd : decode w <;> simp only [step, State.endedBeforeFetch_eq_none.mpr ⟨h.1, h.2.1⟩, h.2.2, hd]

/-- The word a step executes is unique. -/
theorem State.runs_unique {s : State} {v w : Word} (hv : s.runs v) (hw : s.runs w) : v = w :=
  Option.some.inj (hv.2.2.symm.trans hw.2.2)

/-- A run of one more step, of any machine, goes on from the next state its first step answers. -/
theorem run_succ (M : Host.Core) {s t : M.State} (h : M.step s = .next t) (n : Nat) : M.run (n + 1) s = M.run n t := by
  simp only [Host.Core.run, h]

/-- A run of one more step goes on from the next state the step answers. -/
theorem core_run_succ {s t : State} (h : step s = .next t) (n : Nat) :
    Host.Core.run Sys2Proof.core (n + 1) s = Host.Core.run Sys2Proof.core n t :=
  run_succ Sys2Proof.core h n

/-- The driver's step is the step. -/
theorem driverStep_of_next {s t : State} (h : step s = .next t) : driverStep s = t := by
  simp only [driverStep, h]

/-- The run loop stops at a halted state. -/
theorem runFuel_of_halted {s : State} (h : s.status ≠ .running) (n : Nat) : runFuel n s = s := by
  cases n with
  | zero => rfl
  | succ n => exact if_neg h

/-- The run loop makes one step from a running state, and goes on from there. -/
theorem runFuel_succ {s t : State} (hr : s.status = .running) (h : step s = .next t) (n : Nat) :
    runFuel (n + 1) s = runFuel n t := by
  rw [runFuel, if_pos hr, driverStep_of_next h]

end Sys2Proof.Machine
end

