-- ==== Sys2Proof/Tests/Slice0.lean ====
section
/-! SUPPORT. Tests with expected results from 95_test_vectors.md (the vector's name stands in each comment), and for
every statement with hypotheses a witness that meets them. -/

namespace Sys2Proof.Tests

open Sys2Proof.Machine

/-- A reset core launched with the word `w` at its pc. -/
def one (w : Nat) : State := State.reset.withFetchWord 32 w

/-- The same at another pc. -/
def oneAt (pc : Word) (w : Nat) : State := State.withFetchWord { State.reset with pc := pc } 32 w

/-- Data memory with the bytes `bs` from address `a` on. -/
def bytesAt (a : Nat) : List Byte → Memory
  | [] => []
  | b :: bs => (bytesAt (a + 1) bs).write a b

/-! ### The decoder: 95_test_vectors.md part 2, words written out from the encodings -/

theorem test_decode_lui : decode 0xFFFFFFB7 = .instr (.lui 31 0xFFFFF000) := by decide
theorem test_decode_jal : decode 0xFF5FF06F = .instr (.jal 0 0xFFFFFFF4) := by decide
theorem test_decode_jal_bit11 : decode 0x001000EF = .instr (.jal 1 0x00000800) := by decide
theorem test_decode_beq : decode 0x00730863 = .instr (.beq 6 7 0x00000010) := by decide
theorem test_decode_beq_bit11 : decode 0x002080E3 = .instr (.beq 1 2 0x00000800) := by decide
theorem test_decode_lb : decode 0xFFF28583 = .instr (.lb 11 5 0xFFFFFFFF) := by decide
theorem test_decode_lw : decode 0x80012083 = .instr (.lw 1 2 0xFFFFF800) := by decide
theorem test_decode_sb : decode 0xFE628FA3 = .instr (.sb 6 5 0xFFFFFFFF) := by decide
theorem test_decode_sw : decode 0x7E20AFA3 = .instr (.sw 2 1 0x000007FF) := by decide
theorem test_decode_add : decode 0x00650533 = .instr (.add 10 10 6) := by decide
theorem test_decode_xor : decode 0x005343B3 = .instr (.xor 7 6 5) := by decide
theorem test_decode_ori : decode 0x80006093 = .instr (.ori 1 0 0xFFFFF800) := by decide
theorem test_decode_srai : decode 0x41F0D093 = .instr (.srai 1 1 31) := by decide
theorem test_decode_other_words :
    decode 0x00000000 = .other .unknownOpcode ∧ decode 0xFFFFFFFF = .other .unknownOpcode ∧
      decode 0x405285B3 = .other .unmatchedAlu ∧ decode 0x42415093 = .other .unmatchedAlu ∧
      decode 0x00029463 = .other .otherBranch ∧ decode 0x0002C503 = .other (.otherLoad 5 0) ∧
      decode 0x00701023 = .other (.otherStore 0 0) := by decide
/-- AUIPC's immediate is zero, not its U-type field (30_encoding.md rule R59). -/
theorem test_unknown_opcode_immediate : (fieldsOf 0xFFFFF297).imm = 0 ∧ (fieldsOf 0xFFFFF297).rd = 5 := by decide
theorem test_table_word : decodeTableWord 32 0x4042D313 = some (.srai 6 5 4) := by decide
theorem test_encode :
    encode (.jal 1 0xFFFFFFFE) = 0xFFFFF0EF ∧ encode (.beq 0 0 0x00000FFE) = 0x7E000FE3 ∧
      encode (.sw 7 0 9) = 0x007024A3 ∧ encode (.srai 6 5 4) = 0x4042D313 := by decide

/-! ### WellFormed: one ill-formed term for each check -/

theorem test_wellFormed_refuses :
    wellFormed (.lui 1 0x00001001) = false ∧ wellFormed (.jal 1 0x00100000) = false ∧
      wellFormed (.jal 1 0x00000003) = false ∧ wellFormed (.beq 1 2 0x00001000) = false ∧
      wellFormed (.beq 1 2 0x00000001) = false ∧ wellFormed (.lb 1 2 0x00000800) = false ∧
      wellFormed (.lw 1 2 0xFFFFF7FF) = false ∧ wellFormed (.sb 1 2 0x00001000) = false ∧
      wellFormed (.sw 1 2 0x80000000) = false ∧ wellFormed (.ori 1 2 0x00000FFF) = false := by decide

/-! ### One step, at most two per instruction -/

/-- V-LUI-2: the old value is wholly replaced. -/
theorem test_lui : (driverStep ((one 0x800002B7).setReg 5 0x1234)).reg 5 = 0x80000000 := by decide
/-- V-LUI-4: a write to x0 is discarded. -/
theorem test_lui_x0 :
    (driverStep (oneAt 8 0x12345037)).reg 0 = 0 ∧ (driverStep (oneAt 8 0x12345037)).pc = 12 ∧
      (driverStep (oneAt 8 0x12345037)).noop = false := by decide
/-- V-JAL-3: a backward jump and its link. -/
theorem test_jal : (driverStep (oneAt 20 0xFF5FF0EF)).pc = 8 ∧ (driverStep (oneAt 20 0xFF5FF0EF)).reg 1 = 24 := by
  decide
/-- V-JAL-4: the target wraps below zero. -/
theorem test_jal_wraps :
    (driverStep (oneAt 4 0xFF9FF2EF)).pc = 0xFFFFFFFC ∧ (driverStep (oneAt 4 0xFF9FF2EF)).reg 5 = 8 := by decide
/-- V-BEQ-3: equal patterns, backward. -/
theorem test_beq_taken :
    (driverStep (((oneAt 16 0xFE208CE3).setReg 1 0xFFFFFFFF).setReg 2 0xFFFFFFFF)).pc = 8 := by decide
/-- V-BEQ-4: patterns that differ in one bit. -/
theorem test_beq_not_taken : (driverStep ((oneAt 16 0xFE208CE3).setReg 1 0x80000000)).pc = 20 := by decide
/-- V-LD-13: sign extension, and the old base forms the address. -/
theorem test_lb :
    (driverStep ({ one 0x00428283 with mem := bytesAt 20 [0x81] }.setReg 5 0x10)).reg 5 = 0xFFFFFF81 := by decide
/-- V-LD-07: the test is made although rd is 0, on the wrapped sum. -/
theorem test_lb_violation :
    (driverStep ((one 0x7FF28003).setReg 5 0x7FFFFFFF)).status = .loadFault ∧
      (driverStep ((one 0x7FF28003).setReg 5 0x7FFFFFFF)).faultAddr = 0x800007FE ∧
      (driverStep ((one 0x7FF28003).setReg 5 0x7FFFFFFF)).pc = 0 := by decide
/-- V-LD-09: a misaligned word, little-endian. -/
theorem test_lw :
    (driverStep { one 0x00902503 with mem := bytesAt 9 [0xEF, 0xCD, 0xAB, 0x89] }).reg 10 = 0x89ABCDEF := by decide
/-- V-LD-11: a span past the capacity. -/
theorem test_lw_violation :
    (driverStep (((one 0xFFD2A503).setReg 5 0x1000).setReg 10 0x77)).status = .loadFault ∧
      (driverStep (((one 0xFFD2A503).setReg 5 0x1000).setReg 10 0x77)).reg 10 = 0x77 := by decide
/-- V-ST-01: only the low byte is stored. -/
theorem test_sb : (driverStep ((one 0x00500023).setReg 5 0x1234567F)).mem = [(0, 0x7F)] := by decide
/-- V-ST-04: a negative address. -/
theorem test_sb_violation :
    (driverStep ((one 0xFE600FA3).setReg 6 0x55)).status = .storeFault ∧
      (driverStep ((one 0xFE600FA3).setReg 6 0x55)).faultAddr = 0xFFFFFFFF := by decide
/-- V-ST-06: the highest word, byte by byte. -/
theorem test_sw :
    (driverStep (((one 0xFE72AE23).setReg 5 0x1000).setReg 7 0x04030201)).mem =
      [(4092, 1), (4093, 2), (4094, 3), (4095, 4)] := by decide
/-- V-ST-07: a rejected word store writes nothing, not even the bytes in range. -/
theorem test_sw_violation :
    (driverStep (((one 0xFE72AF23).setReg 5 0x1000).setReg 7 0x04030201)).mem = [] ∧
      (driverStep (((one 0xFE72AF23).setReg 5 0x1000).setReg 7 0x04030201)).faultAddr = 0xFFE := by decide
/-- V-ALU-04: the old value is read twice. -/
theorem test_add : (driverStep ((one 0x005282B3).setReg 5 0x40000001)).reg 5 = 0x80000002 := by decide
/-- V-ALU-03: the sum wraps to zero. -/
theorem test_add_wraps :
    (driverStep ((((one 0x003100B3).setReg 1 5).setReg 2 0xFFFFFFFF).setReg 3 1)).reg 1 = 0 := by decide
/-- V-ALU-06. -/
theorem test_xor :
    (driverStep (((one 0x005343B3).setReg 6 0xF8000000).setReg 5 0x80000000)).reg 7 = 0x78000000 := by decide
/-- V-ALU-15: the bits of the immediate are set. -/
theorem test_ori : (driverStep ((one 0x0F016093).setReg 2 0x12345608)).reg 1 = 0x123456F8 := by decide
/-- V-ALU-14: the immediate is sign-extended. -/
theorem test_ori_signed : (driverStep ((one 0xFFF16093).setReg 2 0x12345678)).reg 1 = 0xFFFFFFFF := by decide
/-- V-ALU-18: the sign fills every bit, source and destination the same. -/
theorem test_srai : (driverStep ((one 0x41F0D093).setReg 1 0x80000000)).reg 1 = 0xFFFFFFFF := by decide
/-- V-ALU-21: rounds toward minus infinity. -/
theorem test_srai_rounds : (driverStep ((one 0x40115093).setReg 2 0xFFFFFFFB)).reg 1 = 0xFFFFFFFD := by decide
/-- V-ALU-25: ADDI does nothing. -/
theorem test_addi_is_noop :
    (driverStep ((one 0x00500513).setReg 10 0x77)).reg 10 = 0x77 ∧ (driverStep (one 0x00500513)).noop = true ∧
      (driverStep (one 0x00500513)).pc = 4 := by decide
/-- V-NOP-3: ECALL neither halts nor traps. -/
theorem test_ecall_is_noop : (driverStep (oneAt 8 0x00000073)).pc = 12 ∧
    (driverStep (oneAt 8 0x00000073)).status = .running := by decide
/-- V-BEQ-7: BNE never branches. -/
theorem test_bne_is_noop : (driverStep ((oneAt 12 0x00029463).setReg 5 7)).pc = 16 := by decide
/-- V-LD-15 and V-ST-10: an access of another width is range-tested. -/
theorem test_other_width_violation :
    (driverStep ((one 0x0002C503).setReg 5 0x1000)).status = .loadFault ∧
      (driverStep ((one 0x00729023).setReg 5 0x1000)).status = .storeFault := by decide
/-- V-ST-09: SH in range stores nothing. -/
theorem test_sh_stores_nothing :
    (driverStep ((one 0x00701023).setReg 7 0xBEEF)).mem = [] ∧
      (driverStep ((one 0x00701023).setReg 7 0xBEEF)).noop = true := by decide
/-- V-RUN-1: an empty program completes at once. -/
theorem test_empty_program : (driverStep State.reset).status = .completed ∧ (driverStep State.reset).pc = 0 := by decide
/-- V-RUN-2, step 2: the fetch would pass the capacity. -/
theorem test_fetch_fault :
    (driverStep { State.launch [0x93, 0x62, 0x10, 0x00, 0x13, 0x65] 6 with pc := 4 }).status = .fetchFault := by decide
/-- V-RUN-6, step 2: a fetch at a pc that is 2 modulo 4. -/
theorem test_misaligned_fetch :
    (driverStep { State.launch [0x6F, 0, 0x60, 0, 0, 0, 0x93, 0x62, 0x10, 0, 0, 0, 0, 0, 0, 0] 16 with pc := 6 }).reg 5 =
      1 := by decide

/-! ### Witnesses: for each statement with hypotheses, a state and operands that meet them -/

/-- A core at which `w` runs. -/
theorem one_runs : (one 0x00001537).runs 0x00001537 := ⟨rfl, by decide, by decide⟩

theorem witness_DecodeOfEncode :
    wellFormed (.lui 31 0x80000000) = true ∧ wellFormed (.jal 1 0xFFF00000) = true ∧
      wellFormed (.beq 31 0 0x00000FFE) = true ∧ wellFormed (.lb 1 2 0xFFFFF800) = true ∧
      wellFormed (.lw 1 2 0x000007FF) = true ∧ wellFormed (.sb 1 2 0x000007FF) = true ∧
      wellFormed (.sw 1 2 0xFFFFF800) = true ∧ wellFormed (.add 31 31 31) = true ∧ wellFormed (.xor 0 0 0) = true ∧
      wellFormed (.ori 1 0 0xFFFFFFFF) = true ∧ wellFormed (.srai 1 1 31) = true := by decide

theorem witness_EncodeOfDecode : decode 0x8000006F = .instr (.jal 0 0xFFF00000) := by decide
theorem witness_DecodedIsWellFormed : decode 0x80000063 = .instr (.beq 0 0 0xFFFFF000) := by decide

/-- Every row of the opcode map is met by a word; LuiResult's, JalResult's, BeqResult's, XorResult's, OriResult's and
SraiResult's premise on the word among them. -/
theorem witness_OpcodeMapSelects :
    (0xFFFFFFB7 : Word) &&& 0x0000007F = 0x00000037 ∧ (0xFF5FF06F : Word) &&& 0x0000007F = 0x0000006F ∧
      (0xFE208FE3 : Word) &&& 0x0000707F = 0x00000063 ∧ (0xFFF28583 : Word) &&& 0x0000707F = 0x00000003 ∧
      (0x80012083 : Word) &&& 0x0000707F = 0x00002003 ∧ (0xFE628FA3 : Word) &&& 0x0000707F = 0x00000023 ∧
      (0x8020A023 : Word) &&& 0x0000707F = 0x00002023 ∧ (0x01FF8FB3 : Word) &&& 0xFE00707F = 0x00000033 ∧
      (0x005343B3 : Word) &&& 0xFE00707F = 0x00004033 ∧ (0xFFF16093 : Word) &&& 0x0000707F = 0x00006013 ∧
      (0x41F0D093 : Word) &&& 0xFE00707F = 0x40005013 := by decide

theorem witness_LuiResult : (0x12345037 : Word) &&& 0x0000007F = 0x00000037 := by decide
theorem witness_JalResult : (0x7FFFF06F : Word) &&& 0x0000007F = 0x0000006F := by decide
theorem witness_XorResult : (0x00424233 : Word) &&& 0xFE00707F = 0x00004033 := by decide
theorem witness_OriResult : (0x80006093 : Word) &&& 0x0000707F = 0x00006013 := by decide
theorem witness_SraiResult : (0x40015093 : Word) &&& 0xFE00707F = 0x40005013 := by decide
/-- The word premise, and both clauses: registers that hold the same pattern, and ones that do not. -/
theorem witness_BeqResult :
    (0x80000063 : Word) &&& 0x0000707F = 0x00000063 ∧ (one 0).reg 1 = (one 0).reg 2 ∧
      ((one 0).setReg 1 0x80000000).reg 1 ≠ ((one 0).setReg 1 0x80000000).reg 2 := by decide

/-- The largest index of each field. -/
theorem witness_PositionalFields : (6 < 7) ∧ (4 < 5) ∧ (2 < 3) := by decide
/-- Every clause's opcode; the immediates at the ends of R53's range. -/
theorem witness_ImmediateOfUAndRAndUnknown :
    (fieldsOf 0x800002B7).opcode = 0x37#7 ∧ (fieldsOf 0x800002B7).imm.toInt = -2147483648 ∧
      (fieldsOf 0x00650533).opcode = 0x33#7 ∧
      (fieldsOf 0xFFFFF297).opcode ∉ [0x37#7, 0x6F#7, 0x63#7, 0x23#7, 0x03#7, 0x13#7, 0x33#7] := by decide
/-- Both clauses' opcodes, with the immediates at the ends of their ranges. -/
theorem witness_ImmediateOfJAndB :
    (fieldsOf 0x8000006F).opcode = 0x6F#7 ∧ (fieldsOf 0x8000006F).imm.toInt = -1048576 ∧
      (fieldsOf 0x7FFFF06F).imm.toInt = 1048574 ∧
      (fieldsOf 0x80000063).opcode = 0x63#7 ∧ (fieldsOf 0x80000063).imm.toInt = -4096 ∧
      (fieldsOf 0x7E000FE3).imm.toInt = 4094 := by decide
/-- Every clause's opcode, with the immediates at the ends of their ranges. -/
theorem witness_ImmediateOfSAndI :
    (fieldsOf 0x8020A023).opcode = 0x23#7 ∧ (fieldsOf 0x8020A023).imm.toInt = -2048 ∧
      (fieldsOf 0x7FF12083).opcode = 0x03#7 ∧ (fieldsOf 0x7FF12083).imm.toInt = 2047 ∧
      (fieldsOf 0x41F0D093).opcode = 0x13#7 ∧ (fieldsOf 0x41F0D093).funct3 = 5#3 ∧
      (fieldsOf 0x41F0D093).funct7 = 0x20#7 := by decide

/-- Both sides of each test, where they meet: byte 4095 and 4096, word 4092 and 4093, and a negative address. -/
theorem witness_BoundsRule :
    inBounds 4095 .byte = true ∧ inBounds 4096 .byte = false ∧ inBounds 0xFFFFFFFF .byte = false ∧
      inBounds 4092 .word = true ∧ inBounds 4093 .word = false ∧
      inBounds ((one 0).effAddr 0 4096) .byte = false ∧ inBounds ((one 0).effAddr 0 4093) .word = false := by decide

theorem witness_StoreWordThenLoadWord :
    ((one 0).effAddr 0 4092).toNat ≤ 4092 ∧
      ∃ t, exec (.sw 7 0 4092) (one 0) = .next t ∧ t.effAddr 0 4092 = (one 0).effAddr 0 4092 :=
  ⟨by decide, _, rfl, by decide⟩

theorem witness_MixedWidthReads :
    (∃ m' : Memory, Memory.writeWord [] 4091 0x04030201 = some m') ∧ (4091 : Word).toNat + 1 ≤ 4092 :=
  ⟨⟨_, rfl⟩, by decide⟩

/-- The lowest and the highest byte address. -/
theorem witness_LbResult :
    0 ≤ ((one 0).reg 0 + 0).toInt ∧ 0 ≤ ((one 0).reg 0 + 4095).toInt ∧ ((one 0).reg 0 + 4095).toInt < 4096 := by decide
/-- The lowest and the highest word address. -/
theorem witness_LwResult :
    0 ≤ ((one 0).reg 0 + 0).toInt ∧ 0 ≤ ((one 0).reg 0 + 4092).toInt ∧ ((one 0).reg 0 + 4092).toInt + 4 ≤ 4096 := by
  decide
theorem witness_SbResult :
    0 ≤ ((one 0).effAddr 0 4095).toInt ∧ ((one 0).effAddr 0 4095).toInt < 4096 := by decide
theorem witness_SwResult :
    0 ≤ ((one 0).effAddr 0 4092).toInt ∧ ((one 0).effAddr 0 4092).toInt + 4 ≤ 4096 := by decide
/-- Each clause just past each end. -/
theorem witness_MemoryViolationHaltsTheRun :
    ¬ (0 ≤ ((one 0).reg 0 + 4096).toInt ∧ ((one 0).reg 0 + 4096).toInt < 4096) ∧
      ¬ (0 ≤ ((one 0).reg 0 + 0xFFFFFFFF).toInt ∧ ((one 0).reg 0 + 0xFFFFFFFF).toInt < 4096) ∧
      ¬ (0 ≤ ((one 0).reg 0 + 4093).toInt ∧ ((one 0).reg 0 + 4093).toInt + 4 ≤ 4096) := by decide
theorem witness_DestinationZeroDiscardsOnlyTheWrite : destOf (.lb 5 0 4096) ≠ none := by decide

/-- A word of each of the four classes runs: ECALL, SUB, ADDI, BNE. -/
theorem witness_NoOperationWords :
    ((one 0x00000073).runs 0x00000073 ∧
      (0x00000073 : Word).extractLsb' 0 7 ∉ [0x37#7, 0x6F#7, 0x63#7, 0x23#7, 0x03#7, 0x13#7, 0x33#7]) ∧
    ((one 0x405285B3).runs 0x405285B3 ∧ (0x405285B3 : Word).extractLsb' 0 7 = 0x33#7 ∧
      (0x405285B3 : Word).extractLsb' 25 7 ≠ 0x00#7) ∧
    ((one 0x00500513).runs 0x00500513 ∧ (0x00500513 : Word).extractLsb' 0 7 = 0x13#7 ∧
      (0x00500513 : Word).extractLsb' 12 3 = 0#3) ∧
    ((one 0x00029463).runs 0x00029463 ∧ (0x00029463 : Word).extractLsb' 0 7 = 0x63#7 ∧
      (0x00029463 : Word).extractLsb' 12 3 ≠ 0#3) :=
  ⟨⟨⟨rfl, by decide, by decide⟩, by decide⟩, ⟨⟨rfl, by decide, by decide⟩, by decide, by decide⟩,
    ⟨⟨rfl, by decide, by decide⟩, by decide, by decide⟩, ⟨rfl, by decide, by decide⟩, by decide, by decide⟩

/-- LBU and SH run, at address 4095 (in range) and at 4096 (out of range). -/
theorem witness_OtherWidthWords :
    ((one 0x0002C503).setReg 5 4095).runs 0x0002C503 ∧ ((one 0x0002C503).setReg 5 4096).runs 0x0002C503 ∧
      (0x0002C503 : Word).extractLsb' 12 3 = 4#3 ∧ (0x0002C503 : Word).extractLsb' 0 7 = 0x03#7 ∧
      (((one 0x0002C503).setReg 5 4095).reg 5 + immI 0x0002C503).toInt = 4095 ∧
      (((one 0x0002C503).setReg 5 4096).reg 5 + immI 0x0002C503).toInt = 4096 ∧
      ((one 0x00729023).setReg 5 4095).runs 0x00729023 ∧ (0x00729023 : Word).extractLsb' 0 7 = 0x23#7 ∧
      (0x00729023 : Word).extractLsb' 12 3 = 1#3 ∧
      (((one 0x00729023).setReg 5 4095).reg 5 + immS 0x00729023).toInt = 4095 ∧
      (((one 0x00729023).setReg 5 4096).reg 5 + immS 0x00729023).toInt = 4096 :=
  ⟨⟨rfl, by decide, by decide⟩, ⟨rfl, by decide, by decide⟩, by decide, by decide, by decide, by decide,
    ⟨rfl, by decide, by decide⟩, by decide, by decide, by decide, by decide⟩

/-- A word that is an instruction and a word that is not. -/
theorem witness_StepRunsTheDecodedWord :
    (one 0x00001537).runs 0x00001537 ∧ decode 0x00001537 = .instr (.lui 10 0x1000) ∧
      (one 0x00000073).runs 0x00000073 ∧ decode 0x00000073 = .other .unknownOpcode :=
  ⟨one_runs, by decide, ⟨rfl, by decide, by decide⟩, by decide⟩

theorem witness_StepRunsTheEncodedInstruction :
    wellFormed (.lui 10 0x1000) = true ∧ (one 0x00001537).status = .running ∧
      (one 0x00001537).pc.toNat < (one 0x00001537).validLength ∧
      ∀ k, k < 4 → (one 0x00001537).imem[(one 0x00001537).pc.toNat + k]? =
        some ((encode (.lui 10 0x1000)).extractLsb' (8 * k) 8) := by decide

/-- A fetch answers, at a pc that is a multiple of 4 and at one that is not. -/
theorem witness_FetchIsLittleEndian :
    (one 0x00001537).fetch = some 0x00001537 ∧ (oneAt 6 0x00106293).fetch = some 0x00106293 := by decide

/-- A buffer longer than the placed word. -/
theorem witness_PlacedWordIsTheNextToRun :
    5 < (State.launch [0x93, 0x62, 0x10, 0x00, 0x13, 0x65] 6).imem.length ∧
      ¬ ((State.launch [0x93, 0x62, 0x10, 0x00, 0x13, 0x65] 6).pc.toNat ≤ 5 ∧
        5 < (State.launch [0x93, 0x62, 0x10, 0x00, 0x13, 0x65] 6).pc.toNat + 4) := by decide

theorem witness_HaltedStepChangesNothing : { State.reset with status := .completed }.status ≠ .running := by decide

/-- At the valid length itself and beyond it. -/
theorem witness_CompletionAtTheValidLength :
    State.reset.status = .running ∧ State.reset.validLength ≤ State.reset.pc.toNat ∧
      { one 0 with pc := 0xFFFFFFFC }.validLength ≤ { one 0 with pc := 0xFFFFFFFC }.pc.toNat := by decide

/-- V-RUN-2: six bytes, the pc at 4. -/
def cutShort : State := { State.launch [0x93, 0x62, 0x10, 0x00, 0x13, 0x65] 6 with pc := 4 }

theorem witness_FetchBoundViolationHalts :
    cutShort.status = .running ∧ cutShort.pc.toNat < cutShort.validLength ∧
      cutShort.imem.length ≤ cutShort.pc.toNat + 3 := by decide

/-- A step from a running core, and a register that it changes. -/
theorem witness_OnlyTheDestinationRegisterChanges :
    step (one 0x00001537) = .next (driverStep (one 0x00001537)) ∧
      (driverStep (one 0x00001537)).reg 10 ≠ (one 0x00001537).reg 10 := ⟨rfl, by decide⟩

/-- A step that changes a byte of data memory: SB and SW. -/
theorem witness_OnlyStoresChangeDataMemory :
    step ((one 0x00500023).setReg 5 0x7F) = .next (driverStep ((one 0x00500023).setReg 5 0x7F)) ∧
      (driverStep ((one 0x00500023).setReg 5 0x7F)).mem.read 0 ≠ ((one 0x00500023).setReg 5 0x7F).mem.read 0 ∧
      (driverStep ((one 0x007024A3).setReg 7 0x78000000)).mem.read 12 ≠
        ((one 0x007024A3).setReg 7 0x78000000).mem.read 12 := ⟨rfl, by decide, by decide⟩

/-- Each of the three clauses: JAL, BEQ, any other word, each with a step that leaves the core running. -/
theorem witness_OnlyJalAndTakenBeqRedirectThePc :
    ((one 0x008000EF).runs 0x008000EF ∧ step (one 0x008000EF) = .next (driverStep (one 0x008000EF)) ∧
      (driverStep (one 0x008000EF)).status = .running ∧ decode 0x008000EF = .instr (.jal 1 8)) ∧
    ((one 0x00730863).runs 0x00730863 ∧ step (one 0x00730863) = .next (driverStep (one 0x00730863)) ∧
      (driverStep (one 0x00730863)).status = .running ∧ decode 0x00730863 = .instr (.beq 6 7 16)) ∧
    ((one 0x00001537).runs 0x00001537 ∧ step (one 0x00001537) = .next (driverStep (one 0x00001537)) ∧
      (driverStep (one 0x00001537)).status = .running ∧ decode 0x00001537 = .instr (.lui 10 0x1000)) :=
  ⟨⟨⟨rfl, by decide, by decide⟩, rfl, by decide, by decide⟩, ⟨⟨rfl, by decide, by decide⟩, rfl, by decide, by decide⟩,
    one_runs, rfl, by decide, by decide⟩

/-- A step from a running core into each of the four ends. -/
theorem witness_HaltCauses :
    State.reset.status = .running ∧ (driverStep State.reset).status = .completed ∧
      cutShort.status = .running ∧ (driverStep cutShort).status = .fetchFault ∧
      (one 0xFFF00583).runs 0xFFF00583 ∧ (driverStep (one 0xFFF00583)).status = .loadFault ∧
      (one 0xFE600FA3).runs 0xFE600FA3 ∧ (driverStep (one 0xFE600FA3)).status = .storeFault :=
  ⟨rfl, by decide, rfl, by decide, ⟨rfl, by decide, by decide⟩, by decide, ⟨rfl, by decide, by decide⟩, by decide⟩

/-- A step that ends the run, by completion (where the last clause's premises hold) and by a violation. -/
theorem witness_HaltIsPrecise :
    State.reset.status = .running ∧ step State.reset = .next (driverStep State.reset) ∧
      (driverStep State.reset).status ≠ .running ∧ (driverStep State.reset).status ≠ .loadFault ∧
      (driverStep State.reset).status ≠ .storeFault ∧
      step (one 0xFFF00583) = .next (driverStep (one 0xFFF00583)) ∧
      (driverStep (one 0xFFF00583)).status ≠ .running :=
  ⟨rfl, rfl, by decide, by decide, by decide, rfl, by decide⟩

theorem witness_StepKeepsTheLaunchInputs : step (one 0x00001537) = .next (driverStep (one 0x00001537)) := rfl

/-- A core that runs a store, and one that runs nothing. -/
theorem witness_DataMemoryIsSeenOnlyByLoads :
    (∀ w i, (one 0x00500023).runs w → decode w = .instr i → isLoad i = false) ∧
      ∀ w i, State.reset.runs w → decode w = .instr i → isLoad i = false := by
  constructor
  · intro w i hw hd
    have hf : some w = some (0x00500023 : Word) := hw.2.2.symm.trans (by decide)
    rw [Option.some.inj hf, show decode 0x00500023 = .instr (.sb 5 0 0) by decide] at hd
    cases hd
    rfl
  · intro w i hw
    exact absurd hw.2.1 (by decide)

/-- The state every invariant's witness uses: a launched core that stores to the last byte. -/
def storing : State := ((one 0xFE628FA3).setReg 5 0x1000).setReg 6 0x55

theorem witness_StepKeepsTheMemoryForm : storing.mem.wf ∧ step storing = .next (driverStep storing) := ⟨by decide, rfl⟩
theorem witness_StepKeepsThePcEven : storing.pcEven ∧ step storing = .next (driverStep storing) :=
  ⟨by unfold State.pcEven; decide, rfl⟩
/-- From a running core, and from a core that halted on a load. -/
theorem witness_StepKeepsTheLatchTruthful :
    storing.latchTruthful ∧ step storing = .next (driverStep storing) ∧
      { storing with status := .loadFault, faultAddr := 4093 }.latchTruthful ∧
      step { storing with status := .loadFault, faultAddr := 4093 } =
        .next { storing with status := .loadFault, faultAddr := 4093 } :=
  ⟨trivial, rfl, by unfold State.latchTruthful; decide, rfl⟩
theorem witness_StepKeepsSlotZero : storing.slotZero ∧ step storing = .next (driverStep storing) :=
  ⟨by unfold State.slotZero; decide, rfl⟩
theorem witness_ResetMeetsTheInvariants :
    6 ≤ [(0x93 : Byte), 0x62, 0x10, 0x00, 0x13, 0x65].length ∧
      [(0x93 : Byte), 0x62, 0x10, 0x00, 0x13, 0x65].length ≤ 4294967296 := by decide
/-- A run that ends after one step, and a state that is halted before the first. -/
theorem witness_EndedRunStaysEnded :
    Host.Core.run Sys2Proof.core 1 State.reset = .next State.reset.complete ∧
      State.reset.complete.status ≠ .running ∧
      Host.Core.run Sys2Proof.core 0 State.reset.complete = .next State.reset.complete :=
  ⟨rfl, by decide, rfl⟩
theorem witness_RunKeepsTheInvariants :
    storing.mem.wf ∧ storing.pcEven ∧ storing.latchTruthful ∧ storing.slotZero ∧ storing.launchOk :=
  ⟨by decide, by unfold State.pcEven; decide, trivial, by unfold State.slotZero; decide,
    by unfold State.launchOk; decide⟩

end Sys2Proof.Tests
end

section
/-! PROOF. The family of 20_memory.md: the bounds rule (rules R32, R33) and the round trip of a stored word (rule
R36). The lemmas on the ways into and out of a load or store stand first. -/

namespace Sys2Proof.Machine

/-! ### The bounds rule on the unsigned reading -/

/-- The signed range test accepts exactly the patterns below the capacity (20_memory.md section 1). -/
theorem inBounds_byte_iff_toNat (a : Word) : inBounds a .byte = true ↔ a.toNat < 4096 := by
  rw [inBounds_byte_iff]
  constructor
  · rintro ⟨hnonneg, hlt⟩
    have := toInt_eq_toNat_of_nonneg hnonneg
    omega
  · intro hlt
    have := BitVec.toInt_eq_toNat_of_lt (x := a) (by omega)
    omega

/-- A word is accepted exactly where its last byte is still inside the data memory (20_memory.md section 1). -/
theorem inBounds_word_iff_toNat (a : Word) : inBounds a .word = true ↔ a.toNat ≤ 4092 := by
  rw [inBounds_word_iff, ← inBounds_byte_iff, inBounds_byte_iff_toNat]
  constructor
  · rintro ⟨hlt, hspan⟩
    have := BitVec.toInt_eq_toNat_of_lt (x := a) (by omega)
    omega
  · intro hle
    have := BitVec.toInt_eq_toNat_of_lt (x := a) (by omega)
    omega

/-! ### A word read back -/

/-- A word store that answers was in bounds, and its four bytes are in the memory it answers. -/
theorem Memory.writeWord_eq_some {m m' : Memory} {a v : Word} (h : m.writeWord a v = some m') :
    inBounds a .word = true ∧
      ∀ x, m'.read x = if a.toNat ≤ x ∧ x < a.toNat + 4 then byteOfWord v (x - a.toNat) else m.read x := by
  cases hb : inBounds a .word with
  | false => simp [Memory.writeWord_of_rejected hb] at h
  | true =>
    obtain ⟨m'', hw, -, hread⟩ := Memory.writeWord_of_inBounds (m := m) v hb
    obtain rfl : m'' = m' := Option.some.inj (hw.symm.trans h)
    exact ⟨rfl, hread⟩

/-- The word at the address of a word store is the word stored (20_memory.md rule R36). -/
theorem Memory.readWord_of_writeWord {m m' : Memory} {a v : Word} (h : m.writeWord a v = some m') :
    m'.readWord a = some v := by
  obtain ⟨hb, hread⟩ := Memory.writeWord_eq_some h
  rw [Memory.readWord_of_inBounds hb]
  simp [hread, wordOfBytes_bytes]

/-! ### Frames of the two ends of a step -/

/-- Raising a cause leaves every register. -/
theorem State.raise_regsKept (s : State) (c : Cause) : RegsKept s (s.raise c) := s.raise_reg c

/-- Raising a cause leaves every byte of data memory. -/
theorem State.raise_memKept (s : State) (c : Cause) : MemKept s (s.raise c) := fun a => by rw [State.raise_mem]

/-- A step that writes `rd` and goes on has the register effect of 10_state.md rule R11. -/
theorem State.retire_setReg_regWritten (s : State) (rd : RegIdx) (v p : Word) (b : Bool) :
    RegWritten s ((s.setReg rd v).retire p b) rd v := fun r => s.reg_setReg rd r v

/-! ### Loads and stores by the answer of the data memory (43_loads_stores.md rule R116) -/

section
variable {s : State} {r rs1 : RegIdx} {imm : Word}

theorem exec_lw_of_readWord {v : Word} (h : s.mem.readWord (s.effAddr rs1 imm) = some v) :
    exec (.lw r rs1 imm) s = .next ((s.setReg r v).retire s.nextPc false) := by
  simp only [exec, execLw, h, State.finishLoad]

theorem exec_sw_of_writeWord {m : Memory} (h : s.mem.writeWord (s.effAddr rs1 imm) (s.reg r) = some m) :
    exec (.sw r rs1 imm) s = .next (State.retire { s with mem := m } s.nextPc false) := by
  simp only [exec, execSw, h, State.finishStore]

theorem exec_lb_of_rejected (h : inBounds (s.effAddr rs1 imm) .byte = false) :
    exec (.lb r rs1 imm) s = .next (s.raise (.memBound .load (s.effAddr rs1 imm))) := by
  simp only [exec, execLb, Memory.readByte_of_rejected h, Option.map_none, State.finishLoad]

theorem exec_lw_of_rejected (h : inBounds (s.effAddr rs1 imm) .word = false) :
    exec (.lw r rs1 imm) s = .next (s.raise (.memBound .load (s.effAddr rs1 imm))) := by
  simp only [exec, execLw, Memory.readWord_of_rejected h, State.finishLoad]

theorem exec_sb_of_rejected (h : inBounds (s.effAddr rs1 imm) .byte = false) :
    exec (.sb r rs1 imm) s = .next (s.raise (.memBound .store (s.effAddr rs1 imm))) := by
  simp only [exec, execSb, Memory.writeByte_of_rejected h, State.finishStore]

theorem exec_sw_of_rejected (h : inBounds (s.effAddr rs1 imm) .word = false) :
    exec (.sw r rs1 imm) s = .next (s.raise (.memBound .store (s.effAddr rs1 imm))) := by
  simp only [exec, execSw, Memory.writeWord_of_rejected h, State.finishStore]

end

/-! ### The obligations -/

/-- Settles O12: an accepted access by the read and write lemmas of its width, a rejected one by its instruction's
equation, which leaves only what `State.raise` does. -/
theorem boundsRule : Obligations.BoundsRule := by
  unfold Obligations.BoundsRule
  constructor
  · intro m a v
    refine ⟨inBounds_byte_iff a, (inBounds_word_iff a).trans and_assoc, ?_, ?_⟩
    · cases h : inBounds a .byte with
      | true =>
        obtain ⟨m', hw, -, hread⟩ := Memory.writeByte_of_inBounds (m := m) v h
        exact ⟨Memory.readByte_of_inBounds h, m', hw, hread⟩
      | false => exact ⟨Memory.readByte_of_rejected h, Memory.writeByte_of_rejected h⟩
    · cases h : inBounds a .word with
      | true =>
        obtain ⟨m', hw, -, hread⟩ := Memory.writeWord_of_inBounds (m := m) v h
        exact ⟨Memory.readWord_of_inBounds h, m', hw, hread⟩
      | false => exact ⟨Memory.readWord_of_rejected h, Memory.writeWord_of_rejected h⟩
  · intro s r rs1 imm
    constructor
    · intro h
      exact ⟨⟨_, exec_lb_of_rejected h, s.raise_regsKept _, s.raise_memKept _, rfl, rfl⟩,
        ⟨_, exec_sb_of_rejected h, s.raise_regsKept _, s.raise_memKept _, rfl, rfl⟩⟩
    · intro h
      exact ⟨⟨_, exec_lw_of_rejected h, s.raise_regsKept _, s.raise_memKept _, rfl, rfl⟩,
        ⟨_, exec_sw_of_rejected h, s.raise_regsKept _, s.raise_memKept _, rfl, rfl⟩⟩

/-- Settles O14: the store's memory answers the stored word at the same address, and the load only moves it to
`rd`. -/
theorem storeWordThenLoadWord : Obligations.StoreWordThenLoadWord := by
  unfold Obligations.StoreWordThenLoadWord
  intro s rs2 rs1 imm hle
  obtain ⟨m, hw, -⟩ :=
    Memory.writeWord_of_inBounds (m := s.mem) (s.reg rs2) ((inBounds_word_iff_toNat _).mpr hle)
  refine ⟨_, exec_sw_of_writeWord hw, rfl, fun rd base off haddr => ?_⟩
  have hread : m.readWord (State.effAddr _ base off) = some (s.reg rs2) :=
    haddr ▸ Memory.readWord_of_writeWord hw
  exact ⟨_, exec_lw_of_readWord hread, by simp, State.retire_setReg_regWritten _ rd _ _ _⟩

end Sys2Proof.Machine
end

section
/-! PROOF. The family of 30_encoding.md section 1: the positional fields, the format mux and the immediates (rules R51
to R59). The lemmas on the decoder's record stand first: what each field is, which opcodes have which format, and what
each immediate is bit by bit and as a signed value. -/

namespace Sys2Proof

/-! ### The decoder's record (30_encoding.md rules R51, R62) -/

section
variable (w : Word)

@[simp] theorem fieldsOf_opcode : (fieldsOf w).opcode = w.extractLsb' 0 7 := rfl
@[simp] theorem fieldsOf_rd : (fieldsOf w).rd = w.extractLsb' 7 5 := rfl
@[simp] theorem fieldsOf_funct3 : (fieldsOf w).funct3 = w.extractLsb' 12 3 := rfl
@[simp] theorem fieldsOf_rs1 : (fieldsOf w).rs1 = w.extractLsb' 15 5 := rfl
@[simp] theorem fieldsOf_rs2 : (fieldsOf w).rs2 = w.extractLsb' 20 5 := rfl
@[simp] theorem fieldsOf_funct7 : (fieldsOf w).funct7 = w.extractLsb' 25 7 := rfl

/-- The opcode alone selects the format (30_encoding.md rule R52). -/
theorem fieldsOf_format : (fieldsOf w).format = formatOf (fieldsOf w).opcode := rfl

/-- The format selects the immediate (30_encoding.md rule R52). -/
theorem fieldsOf_imm : (fieldsOf w).imm = immOf (fieldsOf w).format w := rfl

/-- Inside a field, bit `k` is the word's bit `k` above the field's lowest. -/
theorem getLsbD_extractLsb'_of_lt {start len k : Nat} (hk : k < len) :
    (w.extractLsb' start len).getLsbD k = w.getLsbD (k + start) := by
  rw [BitVec.getLsbD_extractLsb', decide_eq_true hk, Bool.true_and, Nat.add_comm]

end

/-! ### The format mux (30_encoding.md rule R52) -/

/-- The opcodes of the table that have a format; the unknown format has the opcodes that are in no list. -/
def Format.opcodes : Format → List (BitVec 7)
  | .u => [0x37#7]
  | .j => [0x6F#7]
  | .b => [0x63#7]
  | .s => [0x23#7]
  | .i => [0x03#7, 0x13#7]
  | .r => [0x33#7]
  | .unknown => []

/-- An opcode of a format's list selects that format. -/
theorem formatOf_of_mem {op : BitVec 7} {f : Format} (h : op ∈ f.opcodes) : formatOf op = f := by
  cases f <;> simp only [Format.opcodes, List.mem_cons, List.not_mem_nil, or_false] at h
  case i => rcases h with rfl | rfl <;> rfl
  all_goals subst h; rfl

/-- The format selected, if it is known, has the opcode in its list. -/
theorem mem_opcodes_formatOf {op : BitVec 7} (h : formatOf op ≠ .unknown) : op ∈ (formatOf op).opcodes := by
  unfold formatOf at h ⊢
  split_ifs at h ⊢ <;> simp_all [Format.opcodes]

/-- The six known formats are selected by exactly the opcodes of their lists. -/
theorem formatOf_eq_iff_mem {f : Format} (hf : f ≠ .unknown) (op : BitVec 7) : formatOf op = f ↔ op ∈ f.opcodes :=
  ⟨fun h => h ▸ mem_opcodes_formatOf (h ▸ hf), formatOf_of_mem⟩

/-- An opcode that is in no list has the unknown format. -/
theorem formatOf_eq_unknown {op : BitVec 7} (h : ∀ f : Format, op ∉ f.opcodes) : formatOf op = .unknown :=
  by_contra fun hne => h _ (mem_opcodes_formatOf hne)

/-- A word with an opcode of a format has that format's immediate. -/
theorem fieldsOf_imm_of_mem {w : Word} {op : BitVec 7} (f : Format) (h : (fieldsOf w).opcode = op)
    (hop : op ∈ f.opcodes) : (fieldsOf w).imm = immOf f w := by
  rw [fieldsOf_imm, fieldsOf_format, h, formatOf_of_mem hop]

/-! ### The immediates bit by bit (30_encoding.md rules R53 to R57) -/

section
variable (w : Word)

theorem immU_getLsbD {k : Nat} (hk : k < 32) : (immU w).getLsbD k = (decide (12 ≤ k) && w.getLsbD k) := by
  rw [immU, BitVec.getLsbD_append]
  by_cases h : k < 12
  · simp [h, Nat.not_le.mpr h]
  · simp [h, Nat.not_lt.mp h, show k - 12 < 20 by omega, show 12 + (k - 12) = k by omega]

theorem bitsJ_getLsbD {k : Nat} (hk : k < 21) :
    (bitsJ w).getLsbD k =
      if k = 0 then false
      else if k ≤ 10 then w.getLsbD (k + 20)
      else if k = 11 then w.getLsbD 20
      else if k ≤ 19 then w.getLsbD k
      else w.getLsbD 31 := by
  simp only [bitsJ, BitVec.getLsbD_append, BitVec.getLsbD_extractLsb']
  interval_cases k <;> simp

theorem bitsB_getLsbD {k : Nat} (hk : k < 13) :
    (bitsB w).getLsbD k =
      if k = 0 then false
      else if k ≤ 4 then w.getLsbD (k + 7)
      else if k ≤ 10 then w.getLsbD (k + 20)
      else if k = 11 then w.getLsbD 7
      else w.getLsbD 31 := by
  simp only [bitsB, BitVec.getLsbD_append, BitVec.getLsbD_extractLsb']
  interval_cases k <;> simp

theorem bitsS_getLsbD {k : Nat} (hk : k < 12) :
    (bitsS w).getLsbD k =
      if k ≤ 4 then w.getLsbD (k + 7) else if k ≤ 10 then w.getLsbD (k + 20) else w.getLsbD 31 := by
  simp only [bitsS, BitVec.getLsbD_append, BitVec.getLsbD_extractLsb']
  interval_cases k <;> simp

end

/-- Sign extension of `n + 1` bits to a word: the bits above repeat bit `n`. -/
theorem getLsbD_signExtend_word {n k : Nat} (x : BitVec (n + 1)) (hk : k < 32) :
    (x.signExtend 32).getLsbD k = x.getLsbD (min k n) := by
  rw [BitVec.getLsbD_signExtend, decide_eq_true hk, Bool.true_and, BitVec.msb_eq_getLsbD_last]
  split
  · rw [Nat.min_eq_left (by omega)]
  · rw [Nat.min_eq_right (by omega), Nat.add_sub_cancel]

section
variable (w : Word) {k : Nat}

theorem immJ_getLsbD (hk : k < 32) :
    (immJ w).getLsbD k =
      if k = 0 then false
      else if k ≤ 10 then w.getLsbD (k + 20)
      else if k = 11 then w.getLsbD 20
      else if k ≤ 19 then w.getLsbD k
      else w.getLsbD 31 := by
  rw [immJ, getLsbD_signExtend_word _ hk, bitsJ_getLsbD w (by omega)]
  rcases Nat.lt_or_ge k 20 with h | h
  · rw [Nat.min_eq_left h.le]
  · simp [Nat.min_eq_right h, show k ≠ 0 by omega, show ¬k ≤ 10 by omega, show k ≠ 11 by omega,
      show ¬k ≤ 19 by omega]

theorem immB_getLsbD (hk : k < 32) :
    (immB w).getLsbD k =
      if k = 0 then false
      else if k ≤ 4 then w.getLsbD (k + 7)
      else if k ≤ 10 then w.getLsbD (k + 20)
      else if k = 11 then w.getLsbD 7
      else w.getLsbD 31 := by
  rw [immB, getLsbD_signExtend_word _ hk, bitsB_getLsbD w (by omega)]
  rcases Nat.lt_or_ge k 12 with h | h
  · rw [Nat.min_eq_left h.le]
  · simp [Nat.min_eq_right h, show k ≠ 0 by omega, show ¬k ≤ 4 by omega, show ¬k ≤ 10 by omega,
      show k ≠ 11 by omega]

theorem immS_getLsbD (hk : k < 32) :
    (immS w).getLsbD k =
      if k ≤ 4 then w.getLsbD (k + 7) else if k ≤ 10 then w.getLsbD (k + 20) else w.getLsbD 31 := by
  rw [immS, getLsbD_signExtend_word _ hk, bitsS_getLsbD w (by omega)]
  rcases Nat.lt_or_ge k 11 with h | h
  · rw [Nat.min_eq_left h.le]
  · simp [Nat.min_eq_right h, show ¬k ≤ 4 by omega, show ¬k ≤ 10 by omega]

theorem immI_getLsbD (hk : k < 32) :
    (immI w).getLsbD k = if k ≤ 10 then w.getLsbD (k + 20) else w.getLsbD 31 := by
  rw [immI, getLsbD_signExtend_word _ hk, getLsbD_extractLsb'_of_lt w (by omega)]
  split
  · rw [Nat.min_eq_left (by omega)]
  · rw [Nat.min_eq_right (by omega)]

end

/-! ### The immediates as signed values (30_encoding.md rules R53 to R57) -/

/-- A pattern that ends in `m` zero bits is a multiple of `2^m`, in the signed range of its width. -/
theorem append_zero_toInt_range {n : Nat} (m : Nat) (x : BitVec (n + 1)) :
    -2 ^ n * 2 ^ m ≤ (x ++ 0#m).toInt ∧ (x ++ 0#m).toInt ≤ (2 ^ n - 1) * 2 ^ m ∧ (x ++ 0#m).toInt % 2 ^ m = 0 := by
  have hlo : -2 ^ n ≤ x.toInt := x.le_toInt
  have hhi : x.toInt ≤ 2 ^ n - 1 := Int.le_sub_one_of_lt x.toInt_lt
  have hpos : (0 : Int) ≤ 2 ^ m := by positivity
  rw [BitVec.toInt_append_zero, mul_comm _ x.toInt]
  exact ⟨mul_le_mul_of_nonneg_right hlo hpos, mul_le_mul_of_nonneg_right hhi hpos, Int.mul_emod_left _ _⟩

/-- Twelve bits extended to a word keep their signed range. -/
theorem signExtend_toInt_range (x : BitVec 12) : -2048 ≤ (x.signExtend 32).toInt ∧ (x.signExtend 32).toInt ≤ 2047 := by
  rw [BitVec.toInt_signExtend_of_le (by decide)]
  exact ⟨x.le_toInt, Int.le_sub_one_of_lt x.toInt_lt⟩

section
variable (w : Word)

theorem immU_toInt_range :
    -2147483648 ≤ (immU w).toInt ∧ (immU w).toInt ≤ 2147479552 ∧ (immU w).toInt % 4096 = 0 :=
  append_zero_toInt_range 12 (w.extractLsb' 12 20)

theorem immJ_toInt_range : -1048576 ≤ (immJ w).toInt ∧ (immJ w).toInt ≤ 1048574 ∧ (immJ w).toInt % 2 = 0 := by
  rw [immJ, BitVec.toInt_signExtend_of_le (by decide)]
  exact append_zero_toInt_range 1 _

theorem immB_toInt_range : -4096 ≤ (immB w).toInt ∧ (immB w).toInt ≤ 4094 ∧ (immB w).toInt % 2 = 0 := by
  rw [immB, BitVec.toInt_signExtend_of_le (by decide)]
  exact append_zero_toInt_range 1 _

end

/-! ### The U-type and I-type immediates as patterns -/

section
variable (w : Word)

/-- The U-type immediate is the word with its low 12 bits cleared (30_encoding.md rule R53). -/
theorem immU_eq_and : immU w = w &&& 0xFFFFF000 := by
  apply BitVec.eq_of_getLsbD_eq
  intro k hk
  rw [immU_getLsbD w hk, show (0xFFFFF000 : Word) = BitVec.allOnes 32 <<< 12 by decide, BitVec.getLsbD_and,
    BitVec.getLsbD_shiftLeft, BitVec.getLsbD_allOnes, Bool.and_comm]
  rcases Nat.lt_or_ge k 12 with h | h
  · simp [h, Nat.not_le.mpr h]
  · simp [hk, h, Nat.not_lt.mpr h, show k - 12 < 32 by omega]

/-- The low five bits of the I-type immediate, SRAI's shift amount, are word bits 24:20 (30_encoding.md rule R57). -/
theorem immI_low_bits : (immI w).extractLsb' 0 5 = w.extractLsb' 20 5 := by
  apply BitVec.eq_of_getLsbD_eq
  intro k hk
  rw [getLsbD_extractLsb'_of_lt _ hk, getLsbD_extractLsb'_of_lt _ hk, immI_getLsbD w (by omega), if_pos (by omega)]

/-- The I-type immediate is funct7 above the five bits of rs2, sign-extended. -/
theorem immI_eq_append : immI w = (w.extractLsb' 25 7 ++ w.extractLsb' 20 5).signExtend 32 := by
  rw [immI, BitVec.extractLsb'_append_extractLsb'_eq_extractLsb' (by decide)]

end

/-- SRAI's immediate is 0x400 plus its shift amount (30_encoding.md rule R57). -/
theorem immI_toNat_of_srai {w : Word} (h : w.extractLsb' 25 7 = 0x20#7) :
    (immI w).toNat = 1024 + (w.extractLsb' 20 5).toNat := by
  rw [immI_eq_append, h]
  generalize w.extractLsb' 20 5 = shamt
  revert shamt
  decide

/-! ### The obligations -/

/-- Settles O5: each field is an `extractLsb'` at its fixed position. -/
theorem positionalFields : Obligations.PositionalFields := by
  unfold Obligations.PositionalFields
  intro w k
  simp only [fieldsOf_opcode, fieldsOf_rd, fieldsOf_funct3, fieldsOf_rs1, fieldsOf_rs2, fieldsOf_funct7]
  exact ⟨getLsbD_extractLsb'_of_lt w, getLsbD_extractLsb'_of_lt w, getLsbD_extractLsb'_of_lt w,
    getLsbD_extractLsb'_of_lt w, getLsbD_extractLsb'_of_lt w, getLsbD_extractLsb'_of_lt w⟩

/-- Settles O6: each known format by its list of opcodes, the immediate by the format's cases. -/
theorem formatMux : Obligations.FormatMux := by
  unfold Obligations.FormatMux
  intro w
  have hmux {f : Format} (hf : f ≠ .unknown) : (fieldsOf w).format = f ↔ (fieldsOf w).opcode ∈ f.opcodes :=
    formatOf_eq_iff_mem hf _
  refine ⟨?_, ?_, ?_, ?_, ?_, ?_, by rw [fieldsOf_imm]; cases (fieldsOf w).format <;> rfl⟩
  all_goals
    rw [hmux (by decide)]
    simp [Format.opcodes]

/-- Settles O7: the opcode gives the format's immediate, an opcode outside the table the unknown format's zero. -/
theorem immediateOfUAndRAndUnknown : Obligations.ImmediateOfUAndRAndUnknown := by
  unfold Obligations.ImmediateOfUAndRAndUnknown
  intro w
  refine ⟨fun h => ?_, fun h => ?_, fun h => ?_⟩
  · have himm : (fieldsOf w).imm = immU w := fieldsOf_imm_of_mem .u h (by decide)
    rw [himm]
    exact ⟨fun _ hk => immU_getLsbD w hk, immU_eq_and w, immU_toInt_range w⟩
  · exact fieldsOf_imm_of_mem .r h (by decide)
  · have hformat : (fieldsOf w).format = .unknown :=
      formatOf_eq_unknown fun f hf => h (by cases f <;> simp_all [Format.opcodes])
    exact ⟨by rw [fieldsOf_imm, hformat]; rfl, hformat, fieldsOf_rd w, fieldsOf_funct3 w, fieldsOf_rs1 w, fieldsOf_rs2 w,
      fieldsOf_funct7 w⟩

/-- Settles O8: the opcode gives the format's immediate, whose bits and range are lemmas of the immediate. -/
theorem immediateOfJAndB : Obligations.ImmediateOfJAndB := by
  unfold Obligations.ImmediateOfJAndB
  intro w
  refine ⟨fun h => ?_, fun h => ?_⟩
  · have himm : (fieldsOf w).imm = immJ w := fieldsOf_imm_of_mem .j h (by decide)
    rw [himm]
    exact ⟨fun _ hk => immJ_getLsbD w hk, immJ_toInt_range w⟩
  · have himm : (fieldsOf w).imm = immB w := fieldsOf_imm_of_mem .b h (by decide)
    rw [himm]
    exact ⟨fun _ hk => immB_getLsbD w hk, immB_toInt_range w⟩

/-- Settles O9: as O8, and SRAI's immediate is funct7 above the shift amount. -/
theorem immediateOfSAndI : Obligations.ImmediateOfSAndI := by
  unfold Obligations.ImmediateOfSAndI
  intro w
  have himmI (h : (fieldsOf w).opcode = 0x03#7 ∨ (fieldsOf w).opcode = 0x13#7) : (fieldsOf w).imm = immI w :=
    h.elim (fieldsOf_imm_of_mem .i · (by decide)) (fieldsOf_imm_of_mem .i · (by decide))
  refine ⟨fun h => ?_, fun h => ?_, fun ⟨hop, _, hfunct7⟩ => ?_⟩
  · have himm : (fieldsOf w).imm = immS w := fieldsOf_imm_of_mem .s h (by decide)
    rw [himm]
    exact ⟨fun _ hk => immS_getLsbD w hk, signExtend_toInt_range (bitsS w)⟩
  · rw [himmI h]
    exact ⟨fun _ hk => immI_getLsbD w hk, signExtend_toInt_range (w.extractLsb' 20 12)⟩
  · rw [himmI (.inr hop)]
    exact ⟨immI_toNat_of_srai hfunct7, immI_low_bits w⟩

end Sys2Proof
end

section
/-! PROOF. The family of 40_cycle_and_alu_control.md: the ALU class tag and control table (rules R86, R87), the
no-operation words (rule R91), the default next pc (rule R85) and the one destination register (rule R89). The lemmas on
what an instruction and another word can do to the state stand first. -/

namespace Sys2Proof.Machine

/-! ### The ways an instruction ends -/

/-- The pc an instruction that completes goes on at (40_cycle_and_alu_control.md rule R85). -/
def State.nextPcOf (s : State) : Instr → Word
  | .jal _ imm => s.target imm
  | .beq rs1 rs2 imm => if patternsEqual (s.reg rs1) (s.reg rs2) then s.target imm else s.nextPc
  | _ => s.nextPc

/-- If the instruction is a load, its access passes the bounds rule (20_memory.md rule R32). -/
def State.loadAccepted (s : State) : Instr → Prop
  | .lb _ rs1 imm => inBounds (s.effAddr rs1 imm) .byte = true
  | .lw _ rs1 imm => inBounds (s.effAddr rs1 imm) .word = true
  | _ => True

/-- A register other than the one written reads as before (10_state.md rule R11). -/
theorem State.reg_setReg_of_ne (s : State) {i r : RegIdx} (v : Word) (h : r ≠ i) :
    (s.setReg i v).reg r = s.reg r := by
  rw [State.reg_setReg, if_neg h]
  split_ifs with h0
  · rw [h0, State.reg_zero]
  · rfl

/-- A latch that has taken a cause is not `Running`. -/
theorem State.raise_status_ne_running (s : State) (c : Cause) : (s.raise c).status ≠ .running := by
  rcases c with _ | ⟨_ | _, _⟩ <;> exact nofun

/-- A byte read that answers was in bounds. -/
theorem Memory.inBounds_of_readByte {m : Memory} {a : Word} {b : Byte} (h : m.readByte a = some b) :
    inBounds a .byte = true := by
  by_contra hb
  simp [Memory.readByte_of_rejected (Bool.eq_false_iff.mpr hb)] at h

/-- A word read that answers was in bounds. -/
theorem Memory.inBounds_of_readWord {m : Memory} {a v : Word} (h : m.readWord a = some v) :
    inBounds a .word = true := by
  by_contra hb
  simp [Memory.readWord_of_rejected (Bool.eq_false_iff.mpr hb)] at h

/-- An instruction writes its destination and goes on, or has no destination, leaves the registers and goes on, or
raises a memory-bound violation (40_cycle_and_alu_control.md rules R85, R89, R93). -/
theorem exec_cases {i : Instr} {s t : State} (h : exec i s = .next t) :
    (∃ rd v, destOf i = some rd ∧ s.loadAccepted i ∧ t = (s.setReg rd v).retire (s.nextPcOf i) false) ∨
    (∃ m, destOf i = none ∧ t = State.retire { s with mem := m } (s.nextPcOf i) false) ∨
    ∃ kind ea, t = s.raise (.memBound kind ea) := by
  cases i with
  | lui | jal | add | xor | ori | srai => exact .inl ⟨_, _, rfl, trivial, (Host.Outcome.next.inj h).symm⟩
  | beq => exact .inr (.inl ⟨s.mem, rfl, (Host.Outcome.next.inj h).symm⟩)
  | lb rd rs1 imm =>
    obtain rfl := Host.Outcome.next.inj h
    rcases s.finishLoad_cases rd (s.effAddr rs1 imm) ((s.mem.readByte (s.effAddr rs1 imm)).map (·.signExtend 32)) with
      ⟨v, hv, ht⟩ | ⟨-, ht⟩
    · obtain ⟨b, hb, -⟩ := Option.map_eq_some_iff.mp hv
      exact .inl ⟨rd, v, rfl, Memory.inBounds_of_readByte hb, ht⟩
    · exact .inr (.inr ⟨_, _, ht⟩)
  | lw rd rs1 imm =>
    obtain rfl := Host.Outcome.next.inj h
    rcases s.finishLoad_cases rd (s.effAddr rs1 imm) (s.mem.readWord (s.effAddr rs1 imm)) with ⟨v, hv, ht⟩ | ⟨-, ht⟩
    · exact .inl ⟨rd, v, rfl, Memory.inBounds_of_readWord hv, ht⟩
    · exact .inr (.inr ⟨_, _, ht⟩)
  | sb rs2 rs1 imm | sw rs2 rs1 imm =>
    obtain rfl := Host.Outcome.next.inj h
    exact .inr ((s.finishStore_cases _ _).imp (fun ⟨m, _, ht⟩ => ⟨m, rfl, ht⟩) fun ⟨_, ht⟩ => ⟨_, _, ht⟩)

/-- A word that is none of the eleven instructions is a no-operation or raises a memory-bound violation
(30_encoding.md rule R66). -/
theorem execOther_cases {o : OtherWord} {s t : State} (h : execOther o s = .next t) :
    t = s.noOperation ∨ ∃ kind ea, t = s.raise (.memBound kind ea) := by
  cases o with
  | unknownOpcode | unmatchedAlu | otherBranch => exact .inl (Host.Outcome.next.inj h).symm
  | otherLoad rs1 imm | otherStore rs1 imm =>
    obtain rfl := Host.Outcome.next.inj h
    exact (s.otherWidth_cases _ _).imp And.right fun ⟨_, ht⟩ => ⟨_, _, ht⟩

/-- A word that is none of the eleven instructions leaves every register (30_encoding.md rule R66). -/
theorem execOther_regsKept {o : OtherWord} {s t : State} (h : execOther o s = .next t) : RegsKept s t := by
  rcases execOther_cases h with rfl | ⟨kind, ea, rfl⟩
  · exact fun _ => rfl
  · exact s.raise_regsKept _

/-- A register that an instruction changes is its destination, and no other register changes with it
(40_cycle_and_alu_control.md rule R89). -/
theorem exec_changed_reg {i : Instr} {s t : State} {r : RegIdx} (h : exec i s = .next t) (hr : t.reg r ≠ s.reg r) :
    destOf i = some r ∧ s.loadAccepted i ∧ ∀ q, q ≠ r → t.reg q = s.reg q := by
  rcases exec_cases h with ⟨rd, v, hd, hl, rfl⟩ | ⟨m, -, rfl⟩ | ⟨kind, ea, rfl⟩
  · have hkept {q : RegIdx} (hq : q ≠ rd) : (s.setReg rd v).reg q = s.reg q := s.reg_setReg_of_ne v hq
    obtain rfl : r = rd := by_contra fun hne => hr (hkept hne)
    exact ⟨hd, hl, fun _ => hkept⟩
  · exact absurd rfl hr
  · exact absurd (s.raise_reg _ r) hr

/-- The pc after an instruction that leaves the core running (40_cycle_and_alu_control.md rule R85). -/
theorem exec_pc {i : Instr} {s t : State} (h : exec i s = .next t) (hrun : t.status = .running) :
    t.pc = s.nextPcOf i := by
  rcases exec_cases h with ⟨rd, v, -, -, rfl⟩ | ⟨m, -, rfl⟩ | ⟨kind, ea, rfl⟩
  · rfl
  · rfl
  · exact absurd hrun (s.raise_status_ne_running _)

/-- The pc after another word that leaves the core running (40_cycle_and_alu_control.md rule R91). -/
theorem execOther_pc {o : OtherWord} {s t : State} (h : execOther o s = .next t) (hrun : t.status = .running) :
    t.pc = s.nextPc := by
  rcases execOther_cases h with rfl | ⟨kind, ea, rfl⟩
  · rfl
  · exact absurd hrun (s.raise_status_ne_running _)

/-- Only JAL and BEQ have another next pc than the default (40_cycle_and_alu_control.md rule R85). -/
theorem State.nextPcOf_default (s : State) {i : Instr} (hjal : ∀ rd imm, i ≠ .jal rd imm)
    (hbeq : ∀ rs1 rs2 imm, i ≠ .beq rs1 rs2 imm) : s.nextPcOf i = s.nextPc := by
  cases i with
  | jal rd imm => exact absurd rfl (hjal rd imm)
  | beq rs1 rs2 imm => exact absurd rfl (hbeq rs1 rs2 imm)
  | _ => rfl

/-- BEQ goes to its target exactly where the two registers are equal (42_control_transfer.md rule R106). -/
theorem State.nextPcOf_beq (s : State) (rs1 rs2 : RegIdx) (imm : Word) :
    s.nextPcOf (.beq rs1 rs2 imm) = if s.reg rs1 = s.reg rs2 then s.target imm else s.nextPc := by
  simp only [State.nextPcOf, patternsEqual, beq_iff_eq]

/-- A step that executes an instruction's word is that instruction. -/
theorem step_of_decode_instr {s : State} {w : Word} {i : Instr} (hw : s.runs w) (hd : decode w = .instr i) :
    step s = exec i s := by
  simp only [step_of_runs hw, hd]

/-- A step that executes another word is what that word does. -/
theorem step_of_decode_other {s : State} {w : Word} {o : OtherWord} (hw : s.runs w) (hd : decode w = .other o) :
    step s = execOther o s := by
  simp only [step_of_runs hw, hd]

/-- The no-operation changes nothing but the pc and the `noop` output (40_cycle_and_alu_control.md rules R91, R92). -/
theorem State.isNoOperation_noOperation (s : State) : IsNoOperation s s.noOperation :=
  ⟨fun _ => rfl, fun _ => rfl, rfl, rfl, ⟨rfl, rfl⟩, rfl, rfl⟩

/-! ### The words of classes 1 to 4 in the decoder (30_encoding.md rule R66) -/

section
variable {w : Word}

/-- Class 1: an opcode that is none of the seven. -/
theorem decode_of_opcode_not_mem
    (h : w.extractLsb' 0 7 ∉ [0x37#7, 0x6F#7, 0x63#7, 0x23#7, 0x03#7, 0x13#7, 0x33#7]) :
    decode w = .other .unknownOpcode := by
  simp only [List.mem_cons, List.not_mem_nil, or_false, not_or] at h
  obtain ⟨hlui, hjal, hbranch, hstore, hload, hi, hr⟩ := h
  simp [decode, select, hlui, hjal, hbranch, hstore, hload, hi, hr]

/-- Class 4: a branch other than BEQ. -/
theorem decode_of_branch_funct3_ne_zero (hop : w.extractLsb' 0 7 = 0x63#7) (h : w.extractLsb' 12 3 ≠ 0#3) :
    decode w = .other .otherBranch := by
  simp [decode, select, hop, selectBranch, h]

/-- Classes 2 and 3: an ALU opcode on which the ALU control selects no operation. -/
theorem decode_of_aluControl_nop (hop : w.extractLsb' 0 7 = 0x33#7 ∨ w.extractLsb' 0 7 = 0x13#7)
    (h : aluControl (aluClassOf (w.extractLsb' 0 7)) (w.extractLsb' 12 3) (w.extractLsb' 25 7) = .nop) :
    decode w = .other .unmatchedAlu := by
  have hsel : decode w = selectAlu (fieldsOf w) := by
    rcases hop with hop | hop <;> simp [decode, select, hop]
  rw [hsel]
  simp only [selectAlu, fieldsOf_opcode, fieldsOf_funct3, fieldsOf_funct7, h]

end

/-! ### The obligations -/

/-- Settles O10: in each class, the rows of the table are the control's branches, in its order. -/
theorem aluControlTable : Obligations.AluControlTable := by
  unfold Obligations.AluControlTable
  refine ⟨fun _ => rfl, fun c f3 f7 => ?_⟩
  cases c with
  | none => simp [aluControl]
  | rClass =>
    simp only [aluControl]
    split_ifs with hadd hxor <;> simp_all
  | iClass =>
    simp only [aluControl]
    split_ifs with hori hsrai <;> simp_all

/-- Settles O29: a word of each class decodes to another word, on which the step is the no-operation. -/
theorem noOperationWords : Obligations.NoOperationWords := by
  unfold Obligations.NoOperationWords
  intro s w hw hclass
  suffices hstep : step s = .next s.noOperation from ⟨_, hstep, s.isNoOperation_noOperation⟩
  rcases hclass with hop | ⟨hop, hadd, hxor⟩ | ⟨hop, hori, hsrai⟩ | ⟨hop, hfunct3⟩
  · exact step_of_decode_other hw (decode_of_opcode_not_mem hop)
  · refine step_of_decode_other hw (decode_of_aluControl_nop (.inl hop) ?_)
    rw [hop]
    exact (if_neg hadd).trans (if_neg hxor)
  · refine step_of_decode_other hw (decode_of_aluControl_nop (.inr hop) ?_)
    rw [hop]
    exact (if_neg hori).trans (if_neg hsrai)
  · exact step_of_decode_other hw (decode_of_branch_funct3_ne_zero hop hfunct3)

/-- Settles O42: a word that leaves the core running has gone on at its own next pc, which only JAL and BEQ
redirect. -/
theorem onlyJalAndTakenBeqRedirectThePc : Obligations.OnlyJalAndTakenBeqRedirectThePc := by
  unfold Obligations.OnlyJalAndTakenBeqRedirectThePc
  intro s t w hw hstep hrun
  have hpc {i : Instr} (hd : decode w = .instr i) : t.pc = s.nextPcOf i :=
    exec_pc ((step_of_decode_instr hw hd).symm.trans hstep) hrun
  refine ⟨fun rd imm hd => hpc hd, fun rs1 rs2 imm hd => (hpc hd).trans (s.nextPcOf_beq rs1 rs2 imm),
    fun hjal hbeq => ?_⟩
  cases hd : decode w with
  | instr i =>
    rw [hd] at hjal hbeq
    exact (hpc hd).trans (s.nextPcOf_default (fun rd imm h => hjal rd imm (congrArg _ h))
      fun rs1 rs2 imm h => hbeq rs1 rs2 imm (congrArg _ h))
  | other o => exact execOther_pc ((step_of_decode_other hw hd).symm.trans hstep) hrun

/-- Settles O40: of the ways a step ends, only an instruction changes a register, and it changes its destination
alone. -/
theorem onlyTheDestinationRegisterChanges : Obligations.OnlyTheDestinationRegisterChanges := by
  unfold Obligations.OnlyTheDestinationRegisterChanges
  intro s t r hstep
  refine ⟨t.reg_zero, fun hr => ⟨?_, ?_⟩⟩
  · rintro rfl
    exact hr (t.reg_zero.trans s.reg_zero.symm)
  · rcases step_cases hstep with ⟨-, rfl⟩ | ⟨-, -, rfl⟩ | ⟨-, -, -, rfl⟩ | ⟨w, i, hw, hd, h⟩ | ⟨w, o, -, -, h⟩
    · exact absurd rfl hr
    · exact absurd (s.complete_reg r) hr
    · exact absurd (s.raise_reg _ r) hr
    · obtain ⟨hdest, hload, hkept⟩ := exec_changed_reg h hr
      exact ⟨w, i, hw, hd, hdest, fun _ _ _ hi => by subst hi; exact hload, fun _ _ _ hi => by subst hi; exact hload,
        hkept⟩
    · exact absurd (execOther_regsKept h r) hr

end Sys2Proof.Machine
end

section
/-! PROOF. The family of 41_upper_immediate.md: LUI (rule R100). The lemmas on the fields a row's mask fixes, and on the
frame of a step that writes one register and goes on, stand first. -/

namespace Sys2Proof

/-- A field that a mask covers is the match's field in every word of the row (30_encoding.md rule R64). -/
theorem extractLsb'_of_and_eq {w mask m : Word} {start len : Nat}
    (hmask : mask.extractLsb' start len = BitVec.allOnes len) (h : w &&& mask = m) :
    w.extractLsb' start len = m.extractLsb' start len := by
  rw [← h, BitVec.extractLsb'_and, hmask, BitVec.and_allOnes]

/-- LUI's opcode alone selects LUI, with the U-type immediate (30_encoding.md rules R53, R64). -/
theorem decode_of_lui_opcode {w : Word} (hop : w.extractLsb' 0 7 = 0x37#7) :
    decode w = .instr (.lui (w.extractLsb' 7 5) (immU w)) := by
  have himm : (fieldsOf w).imm = immU w := fieldsOf_imm_of_mem .u hop (by decide)
  simp only [decode, select, fieldsOf_opcode, hop, if_true, fieldsOf_rd, himm]

end Sys2Proof

namespace Sys2Proof.Machine

/-- A step that writes `rd` and goes on leaves every byte of data memory. -/
theorem State.retire_setReg_memKept (s : State) (rd : RegIdx) (v p : Word) (b : Bool) :
    MemKept s ((s.setReg rd v).retire p b) := fun a => by
  rw [State.retire_mem, State.setReg_mem]

/-- A step that writes `rd` and goes on completes: the latch and the launch inputs are as before. -/
theorem State.retire_setReg_completes (s : State) (rd : RegIdx) (v p : Word) (b : Bool) :
    Completes s ((s.setReg rd v).retire p b) p b := by
  refine ⟨rfl, rfl, ⟨?_, ?_⟩, ?_, ?_⟩
  · rw [State.retire_status, State.setReg_status]
  · rw [State.retire_faultAddr, State.setReg_faultAddr]
  · rw [State.retire_imem, State.setReg_imem]
  · rw [State.retire_validLength, State.setReg_validLength]

/-- Settles O16: the mask covers the opcode, which selects LUI; LUI writes `rd` and goes on, and that step's frame is
the statement's. -/
theorem luiResult : Obligations.LuiResult := by
  unfold Obligations.LuiResult
  constructor
  · intro w hrow
    exact decode_of_lui_opcode (extractLsb'_of_and_eq (by decide) hrow)
  · intro s rd imm
    exact ⟨(s.setReg rd imm).retire s.nextPc false, rfl, s.retire_setReg_regWritten rd imm _ _,
      s.retire_setReg_memKept rd imm _ _, s.retire_setReg_completes rd imm _ _⟩

end Sys2Proof.Machine
end

section
/-! PROOF. The family of 42_control_transfer.md: JAL (rule R105) and BEQ (rule R106). The lemmas on the words the two
rows select, and on the frame of a step that goes on without writing a register, stand first. -/

namespace Sys2Proof

section
variable {w : Word}

/-- JAL's opcode alone selects JAL, with the J-type immediate (30_encoding.md rules R54, R64). -/
theorem decode_of_jal_opcode (hop : w.extractLsb' 0 7 = 0x6F#7) :
    decode w = .instr (.jal (w.extractLsb' 7 5) (immJ w)) := by
  have himm : (fieldsOf w).imm = immJ w := fieldsOf_imm_of_mem .j hop (by decide)
  simp [decode, select, hop, himm]

/-- The branch opcode with funct3 0 selects BEQ, with the B-type immediate (30_encoding.md rules R55, R64); every other
funct3 is `decode_of_branch_funct3_ne_zero`. -/
theorem decode_of_branch_funct3_zero (hop : w.extractLsb' 0 7 = 0x63#7) (hfunct3 : w.extractLsb' 12 3 = 0#3) :
    decode w = .instr (.beq (w.extractLsb' 15 5) (w.extractLsb' 20 5) (immB w)) := by
  have himm : (fieldsOf w).imm = immB w := fieldsOf_imm_of_mem .b hop (by decide)
  simp [decode, select, hop, selectBranch, hfunct3, himm]

end

end Sys2Proof

namespace Sys2Proof.Machine

/-- A step that goes on without writing a register completes: the latch and the launch inputs are as before. -/
theorem State.retire_completes (s : State) (p : Word) (b : Bool) : Completes s (s.retire p b) p b :=
  ⟨s.retire_pc p b, s.retire_noop p b, ⟨s.retire_status p b, s.retire_faultAddr p b⟩,
    s.retire_imem p b, s.retire_validLength p b⟩

/-- BEQ goes on at its next pc and writes no register (42_control_transfer.md rule R106). -/
theorem exec_beq (s : State) (rs1 rs2 : RegIdx) (imm : Word) :
    exec (.beq rs1 rs2 imm) s = .next (s.retire (s.nextPcOf (.beq rs1 rs2 imm)) false) := rfl

/-- JAL writes the link and goes on at its target (42_control_transfer.md rule R105). -/
theorem exec_jal (s : State) (rd : RegIdx) (imm : Word) :
    exec (.jal rd imm) s = .next ((s.setReg rd s.nextPc).retire (s.target imm) false) := rfl

/-- Settles O18: the mask covers the opcode and funct3, which select BEQ; BEQ changes the pc alone, and the comparison
of the two registers says which of its two values the pc takes. -/
theorem beqResult : Obligations.BeqResult := by
  unfold Obligations.BeqResult
  constructor
  · intro w hrow
    exact decode_of_branch_funct3_zero (extractLsb'_of_and_eq (by decide) hrow) (extractLsb'_of_and_eq (by decide) hrow)
  · intro s rs1 rs2 imm
    refine ⟨_, exec_beq s rs1 rs2 imm, s.retire_reg _ _, fun a => by rw [State.retire_mem], fun heq => ?_, fun hne => ?_⟩
    · rw [State.nextPcOf_beq, if_pos heq]
      exact s.retire_completes (s.target imm) false
    · rw [State.nextPcOf_beq, if_neg hne]
      exact s.retire_completes s.nextPc false

/-- Settles O17: the mask covers the opcode, which selects JAL; JAL writes the link to `rd` and goes on at the target,
and that step's frame is the statement's. -/
theorem jalResult : Obligations.JalResult := by
  unfold Obligations.JalResult
  constructor
  · intro w hrow
    exact decode_of_jal_opcode (extractLsb'_of_and_eq (by decide) hrow)
  · intro s rd imm
    exact ⟨_, exec_jal s rd imm, s.retire_setReg_regWritten rd s.nextPc _ _, s.retire_setReg_memKept rd s.nextPc _ _,
      s.retire_setReg_completes rd s.nextPc _ _⟩

end Sys2Proof.Machine
end

section
/-! PROOF. The family of 44_integer_alu.md: XOR, ORI and SRAI (rules R131 to R133). The lemmas on the words the three
rows select, on the equation of each instruction, and on the arithmetic shift stand first. -/

namespace Sys2Proof

/-! ### The words of the three rows (30_encoding.md rule R64) -/

section
variable {w : Word}

/-- The two ALU opcodes leave the instruction to the ALU control (40_cycle_and_alu_control.md rule R84). -/
theorem decode_of_alu_opcode (hop : w.extractLsb' 0 7 = 0x33#7 ∨ w.extractLsb' 0 7 = 0x13#7) :
    decode w = selectAlu (fieldsOf w) := by
  rcases hop with hop | hop <;> simp [decode, select, hop]

/-- An arithmetic-immediate word has the I-type immediate (30_encoding.md rule R57). -/
theorem fieldsOf_imm_of_aluImmediate (hop : w.extractLsb' 0 7 = 0x13#7) : (fieldsOf w).imm = immI w :=
  fieldsOf_imm_of_mem .i hop (by decide)

/-- The R-class combination of funct3 4 and funct7 0 selects XOR (44_integer_alu.md rule R131). -/
theorem decode_of_xor_fields (hop : w.extractLsb' 0 7 = 0x33#7) (hfunct3 : w.extractLsb' 12 3 = 4#3)
    (hfunct7 : w.extractLsb' 25 7 = 0x00#7) :
    decode w = .instr (.xor (w.extractLsb' 7 5) (w.extractLsb' 15 5) (w.extractLsb' 20 5)) := by
  rw [decode_of_alu_opcode (.inl hop)]
  simp [selectAlu, hop, hfunct3, hfunct7, aluClassOf, aluControl]

/-- The I-class funct3 6 selects ORI, whatever the immediate (44_integer_alu.md rule R132). -/
theorem decode_of_ori_fields (hop : w.extractLsb' 0 7 = 0x13#7) (hfunct3 : w.extractLsb' 12 3 = 6#3) :
    decode w = .instr (.ori (w.extractLsb' 7 5) (w.extractLsb' 15 5) (immI w)) := by
  rw [decode_of_alu_opcode (.inr hop)]
  simp [selectAlu, hop, hfunct3, aluClassOf, aluControl, fieldsOf_imm_of_aluImmediate hop]

/-- The I-class combination of funct3 5 and funct7 0x20 selects SRAI; its amount, the low bits of the immediate, is the
field of rs2 (44_integer_alu.md rule R133). -/
theorem decode_of_srai_fields (hop : w.extractLsb' 0 7 = 0x13#7) (hfunct3 : w.extractLsb' 12 3 = 5#3)
    (hfunct7 : w.extractLsb' 25 7 = 0x20#7) :
    decode w = .instr (.srai (w.extractLsb' 7 5) (w.extractLsb' 15 5) (w.extractLsb' 20 5)) := by
  rw [decode_of_alu_opcode (.inr hop)]
  simp [selectAlu, hop, hfunct3, hfunct7, aluClassOf, aluControl, fieldsOf_imm_of_aluImmediate hop, immI_low_bits]

end

/-- Sign extension to a word leaves the low bits. -/
theorem extractLsb'_signExtend_low {n m : Nat} (x : BitVec (n + 1)) (hm : m ≤ n + 1) (hword : m ≤ 32) :
    (x.signExtend 32).extractLsb' 0 m = x.extractLsb' 0 m := by
  apply BitVec.eq_of_getLsbD_eq
  intro k hk
  rw [BitVec.getLsbD_extractLsb', BitVec.getLsbD_extractLsb', getLsbD_signExtend_word _ (by omega),
    Nat.min_eq_left (by omega)]

end Sys2Proof

namespace Sys2Proof.Machine

/-! ### What each instruction does (44_integer_alu.md) -/

/-- XOR writes the bitwise exclusive or and goes on (44_integer_alu.md rule R131). -/
theorem exec_xor (s : State) (rd rs1 rs2 : RegIdx) :
    exec (.xor rd rs1 rs2) s = .next ((s.setReg rd (s.reg rs1 ^^^ s.reg rs2)).retire s.nextPc false) := rfl

/-- ORI writes the bitwise or with the immediate and goes on (44_integer_alu.md rule R132). -/
theorem exec_ori (s : State) (rd rs1 : RegIdx) (imm : Word) :
    exec (.ori rd rs1 imm) s = .next ((s.setReg rd (s.reg rs1 ||| imm)).retire s.nextPc false) := rfl

/-- SRAI writes the arithmetic shift by its amount, which the ALU takes from the low bits of the immediate, and goes on
(44_integer_alu.md rule R133). -/
theorem exec_srai (s : State) (rd rs1 : RegIdx) (shamt : BitVec 5) :
    exec (.srai rd rs1 shamt) s =
      .next ((s.setReg rd ((s.reg rs1).sshiftRight shamt.toNat)).retire s.nextPc false) := by
  have hamount : ((0x20#7 ++ shamt : BitVec 12).signExtend 32).extractLsb' 0 5 = shamt := by
    rw [extractLsb'_signExtend_low _ (by decide) (by decide), BitVec.extractLsb'_append_eq_right]
  simp only [exec, execSrai, alu, hamount, State.finishAlu]

/-! ### The arithmetic shift (44_integer_alu.md rule R133) -/

/-- A bit of the shifted word is the bit `n` above it, or the sign bit where there is none. -/
theorem getLsbD_sshiftRight_word (x : Word) (n : Nat) {k : Nat} (hk : k < 32) :
    (x.sshiftRight n).getLsbD k = if k + n < 32 then x.getLsbD (k + n) else x.getLsbD 31 := by
  rw [BitVec.getLsbD_sshiftRight, decide_eq_false (Nat.not_le.mpr hk), Bool.not_false, Bool.true_and, Nat.add_comm,
    BitVec.msb_eq_getLsbD_last]

/-- The shifted word, read as a signed number, is the floor of the quotient by `2^n`. -/
theorem toInt_sshiftRight_eq_div (x : Word) (n : Nat) : (x.sshiftRight n).toInt = x.toInt / (2 : Int) ^ n := by
  rw [BitVec.toInt_sshiftRight, Int.shiftRight_eq_div_pow, Nat.cast_pow, Nat.cast_ofNat]

/-! ### The obligations -/

/-- Settles O27: the mask covers the opcode, funct3 and funct7, which select SRAI; the value written is the arithmetic
shift, known bit by bit and as a floor. -/
theorem sraiResult : Obligations.SraiResult := by
  unfold Obligations.SraiResult
  constructor
  · intro w hrow
    exact decode_of_srai_fields (extractLsb'_of_and_eq (by decide) hrow) (extractLsb'_of_and_eq (by decide) hrow)
      (extractLsb'_of_and_eq (by decide) hrow)
  · intro s rd rs1 shamt
    exact ⟨_, _, exec_srai s rd rs1 shamt, s.retire_setReg_regWritten rd _ _ _,
      fun k => getLsbD_sshiftRight_word _ _, toInt_sshiftRight_eq_div _ _, s.retire_setReg_memKept rd _ _ _,
      s.retire_setReg_completes rd _ _ _⟩

/-- Settles O25: the mask covers the opcode, funct3 and funct7, which select XOR; XOR writes `rd` and goes on, and that
step's frame is the statement's. -/
theorem xorResult : Obligations.XorResult := by
  unfold Obligations.XorResult
  constructor
  · intro w hrow
    exact decode_of_xor_fields (extractLsb'_of_and_eq (by decide) hrow) (extractLsb'_of_and_eq (by decide) hrow)
      (extractLsb'_of_and_eq (by decide) hrow)
  · intro s rd rs1 rs2
    exact ⟨_, exec_xor s rd rs1 rs2, s.retire_setReg_regWritten rd _ _ _, s.retire_setReg_memKept rd _ _ _,
      s.retire_setReg_completes rd _ _ _⟩

/-- Settles O26: the mask covers the opcode and funct3, which select ORI whatever the immediate; ORI writes `rd` and
goes on, and that step's frame is the statement's. -/
theorem oriResult : Obligations.OriResult := by
  unfold Obligations.OriResult
  constructor
  · intro w hrow
    exact decode_of_ori_fields (extractLsb'_of_and_eq (by decide) hrow) (extractLsb'_of_and_eq (by decide) hrow)
  · intro s rd rs1 imm
    exact ⟨_, exec_ori s rd rs1 imm, s.retire_setReg_regWritten rd _ _ _, s.retire_setReg_memKept rd _ _ _,
      s.retire_setReg_completes rd _ _ _⟩

end Sys2Proof.Machine
end

section
/-! PROOF. The family of 60_exceptions.md: the fetch-bound violation (rule R152). -/

namespace Sys2Proof.Machine

/-- A step that passes the tests before the fetch, and whose fetch is invalid, raises the fetch-bound violation and does
nothing else (40_cycle_and_alu_control.md rules R81, R82). -/
theorem step_of_invalid_fetch {s : State} (hbefore : s.endedBeforeFetch = none) (hfetch : s.fetch = none) :
    step s = .next (s.raise .fetchBound) := by
  simp only [step, hbefore, hfetch]

/-- Settles O38: the two tests before the fetch pass, the fetch is invalid where `pc + 3` is past the capacity, and
raising the fetch-bound violation sets the latch alone. -/
theorem fetchBoundViolationHalts : Obligations.FetchBoundViolationHalts := by
  unfold Obligations.FetchBoundViolationHalts
  intro s hrunning hvalid hcapacity
  have hbefore : s.endedBeforeFetch = none := State.endedBeforeFetch_eq_none.mpr ⟨hrunning, hvalid⟩
  have hfetch : s.fetch = none := State.fetch_eq_none.mpr hcapacity
  exact step_of_invalid_fetch hbefore hfetch

end Sys2Proof.Machine
end

section
/-! PROOF. The decoder against the encoder (30_encoding.md sections 2 and 3): which words each of the decoder's answers
stands for, the opcode map, and the two round trips. The answers' words, the fields of an encoded word, and the word
rebuilt from its fields stand first. -/

namespace Sys2Proof

/-! ### The words of the other rows (30_encoding.md rule R64) -/

section
variable {w : Word}

/-- The load opcode leaves the access width to funct3, with the I-type immediate (30_encoding.md rules R57, R65). -/
theorem decode_of_load_opcode (hop : w.extractLsb' 0 7 = 0x03#7) :
    decode w =
      if w.extractLsb' 12 3 = 0#3 then .instr (.lb (w.extractLsb' 7 5) (w.extractLsb' 15 5) (immI w))
      else if w.extractLsb' 12 3 = 2#3 then .instr (.lw (w.extractLsb' 7 5) (w.extractLsb' 15 5) (immI w))
      else .other (.otherLoad (w.extractLsb' 15 5) (immI w)) := by
  have himm : (fieldsOf w).imm = immI w := fieldsOf_imm_of_mem .i hop (by decide)
  simp [decode, select, hop, selectLoad, himm]

/-- The store opcode leaves the access width to funct3, with the S-type immediate (30_encoding.md rules R56, R65). -/
theorem decode_of_store_opcode (hop : w.extractLsb' 0 7 = 0x23#7) :
    decode w =
      if w.extractLsb' 12 3 = 0#3 then .instr (.sb (w.extractLsb' 20 5) (w.extractLsb' 15 5) (immS w))
      else if w.extractLsb' 12 3 = 2#3 then .instr (.sw (w.extractLsb' 20 5) (w.extractLsb' 15 5) (immS w))
      else .other (.otherStore (w.extractLsb' 15 5) (immS w)) := by
  have himm : (fieldsOf w).imm = immS w := fieldsOf_imm_of_mem .s hop (by decide)
  simp [decode, select, hop, selectStore, himm]

/-- The R-class combination of funct3 0 and funct7 0 selects ADD (44_integer_alu.md rule R130). -/
theorem decode_of_add_fields (hop : w.extractLsb' 0 7 = 0x33#7) (hfunct3 : w.extractLsb' 12 3 = 0#3)
    (hfunct7 : w.extractLsb' 25 7 = 0x00#7) :
    decode w = .instr (.add (w.extractLsb' 7 5) (w.extractLsb' 15 5) (w.extractLsb' 20 5)) := by
  rw [decode_of_alu_opcode (.inl hop)]
  simp [selectAlu, hop, hfunct3, hfunct7, aluClassOf, aluControl]

end

/-! ### What each of the decoder's answers says of the word -/

/-- The word's opcode and functs are those of the answer's row, or class of rule R66, and the answer's operands are the
word's fields (30_encoding.md rules R51 to R57, R64, R66). -/
def Selects (w : Word) : Decoded → Prop
  | .instr (.lui rd imm) => w.extractLsb' 0 7 = 0x37#7 ∧ rd = w.extractLsb' 7 5 ∧ imm = immU w
  | .instr (.jal rd imm) => w.extractLsb' 0 7 = 0x6F#7 ∧ rd = w.extractLsb' 7 5 ∧ imm = immJ w
  | .instr (.beq rs1 rs2 imm) =>
    w.extractLsb' 0 7 = 0x63#7 ∧ w.extractLsb' 12 3 = 0#3 ∧
      rs1 = w.extractLsb' 15 5 ∧ rs2 = w.extractLsb' 20 5 ∧ imm = immB w
  | .instr (.lb rd rs1 imm) =>
    w.extractLsb' 0 7 = 0x03#7 ∧ w.extractLsb' 12 3 = 0#3 ∧
      rd = w.extractLsb' 7 5 ∧ rs1 = w.extractLsb' 15 5 ∧ imm = immI w
  | .instr (.lw rd rs1 imm) =>
    w.extractLsb' 0 7 = 0x03#7 ∧ w.extractLsb' 12 3 = 2#3 ∧
      rd = w.extractLsb' 7 5 ∧ rs1 = w.extractLsb' 15 5 ∧ imm = immI w
  | .instr (.sb rs2 rs1 imm) =>
    w.extractLsb' 0 7 = 0x23#7 ∧ w.extractLsb' 12 3 = 0#3 ∧
      rs2 = w.extractLsb' 20 5 ∧ rs1 = w.extractLsb' 15 5 ∧ imm = immS w
  | .instr (.sw rs2 rs1 imm) =>
    w.extractLsb' 0 7 = 0x23#7 ∧ w.extractLsb' 12 3 = 2#3 ∧
      rs2 = w.extractLsb' 20 5 ∧ rs1 = w.extractLsb' 15 5 ∧ imm = immS w
  | .instr (.add rd rs1 rs2) =>
    w.extractLsb' 0 7 = 0x33#7 ∧ w.extractLsb' 12 3 = 0#3 ∧ w.extractLsb' 25 7 = 0x00#7 ∧
      rd = w.extractLsb' 7 5 ∧ rs1 = w.extractLsb' 15 5 ∧ rs2 = w.extractLsb' 20 5
  | .instr (.xor rd rs1 rs2) =>
    w.extractLsb' 0 7 = 0x33#7 ∧ w.extractLsb' 12 3 = 4#3 ∧ w.extractLsb' 25 7 = 0x00#7 ∧
      rd = w.extractLsb' 7 5 ∧ rs1 = w.extractLsb' 15 5 ∧ rs2 = w.extractLsb' 20 5
  | .instr (.ori rd rs1 imm) =>
    w.extractLsb' 0 7 = 0x13#7 ∧ w.extractLsb' 12 3 = 6#3 ∧
      rd = w.extractLsb' 7 5 ∧ rs1 = w.extractLsb' 15 5 ∧ imm = immI w
  | .instr (.srai rd rs1 shamt) =>
    w.extractLsb' 0 7 = 0x13#7 ∧ w.extractLsb' 12 3 = 5#3 ∧ w.extractLsb' 25 7 = 0x20#7 ∧
      rd = w.extractLsb' 7 5 ∧ rs1 = w.extractLsb' 15 5 ∧ shamt = w.extractLsb' 20 5
  | .other .unknownOpcode => w.extractLsb' 0 7 ∉ [0x37#7, 0x6F#7, 0x63#7, 0x23#7, 0x03#7, 0x13#7, 0x33#7]
  | .other .unmatchedAlu =>
    (w.extractLsb' 0 7 = 0x33#7 ∨ w.extractLsb' 0 7 = 0x13#7) ∧
      aluControl (aluClassOf (w.extractLsb' 0 7)) (w.extractLsb' 12 3) (w.extractLsb' 25 7) = .nop
  | .other .otherBranch => w.extractLsb' 0 7 = 0x63#7 ∧ w.extractLsb' 12 3 ≠ 0#3
  | .other (.otherLoad rs1 imm) =>
    w.extractLsb' 0 7 = 0x03#7 ∧ w.extractLsb' 12 3 ≠ 0#3 ∧ w.extractLsb' 12 3 ≠ 2#3 ∧
      rs1 = w.extractLsb' 15 5 ∧ imm = immI w
  | .other (.otherStore rs1 imm) =>
    w.extractLsb' 0 7 = 0x23#7 ∧ w.extractLsb' 12 3 ≠ 0#3 ∧ w.extractLsb' 12 3 ≠ 2#3 ∧
      rs1 = w.extractLsb' 15 5 ∧ imm = immS w

section
variable {w : Word} {d : Decoded}

/-- An answer whose row and operands the word has is the decoder's answer. -/
theorem decode_of_selects (h : Selects w d) : decode w = d := by
  match d, h with
  | .instr (.lui _ _), ⟨hop, rfl, rfl⟩ => exact decode_of_lui_opcode hop
  | .instr (.jal _ _), ⟨hop, rfl, rfl⟩ => exact decode_of_jal_opcode hop
  | .instr (.beq _ _ _), ⟨hop, hfunct3, rfl, rfl, rfl⟩ => exact decode_of_branch_funct3_zero hop hfunct3
  | .instr (.lb _ _ _), ⟨hop, hfunct3, rfl, rfl, rfl⟩ => rw [decode_of_load_opcode hop, if_pos hfunct3]
  | .instr (.lw _ _ _), ⟨hop, hfunct3, rfl, rfl, rfl⟩ => simp [decode_of_load_opcode hop, hfunct3]
  | .instr (.sb _ _ _), ⟨hop, hfunct3, rfl, rfl, rfl⟩ => rw [decode_of_store_opcode hop, if_pos hfunct3]
  | .instr (.sw _ _ _), ⟨hop, hfunct3, rfl, rfl, rfl⟩ => simp [decode_of_store_opcode hop, hfunct3]
  | .instr (.add _ _ _), ⟨hop, hfunct3, hfunct7, rfl, rfl, rfl⟩ => exact decode_of_add_fields hop hfunct3 hfunct7
  | .instr (.xor _ _ _), ⟨hop, hfunct3, hfunct7, rfl, rfl, rfl⟩ => exact decode_of_xor_fields hop hfunct3 hfunct7
  | .instr (.ori _ _ _), ⟨hop, hfunct3, rfl, rfl, rfl⟩ => exact decode_of_ori_fields hop hfunct3
  | .instr (.srai _ _ _), ⟨hop, hfunct3, hfunct7, rfl, rfl, rfl⟩ => exact decode_of_srai_fields hop hfunct3 hfunct7
  | .other .unknownOpcode, hop => exact Machine.decode_of_opcode_not_mem hop
  | .other .unmatchedAlu, ⟨hop, hnop⟩ => exact Machine.decode_of_aluControl_nop hop hnop
  | .other .otherBranch, ⟨hop, hfunct3⟩ => exact Machine.decode_of_branch_funct3_ne_zero hop hfunct3
  | .other (.otherLoad _ _), ⟨hop, h0, h2, rfl, rfl⟩ => rw [decode_of_load_opcode hop, if_neg h0, if_neg h2]
  | .other (.otherStore _ _), ⟨hop, h0, h2, rfl, rfl⟩ => rw [decode_of_store_opcode hop, if_neg h0, if_neg h2]

/-- Every word of an ALU opcode has an answer: one of the four instructions, or the unmatched word. -/
theorem exists_selects_of_alu_opcode (hop : w.extractLsb' 0 7 = 0x33#7 ∨ w.extractLsb' 0 7 = 0x13#7) :
    ∃ d, Selects w d := by
  obtain ⟨hadd, hxor, hori, hsrai⟩ :=
    Machine.aluControlTable.2 (aluClassOf (w.extractLsb' 0 7)) (w.extractLsb' 12 3) (w.extractLsb' 25 7)
  have hr (h : aluClassOf (w.extractLsb' 0 7) = .rClass) : w.extractLsb' 0 7 = 0x33#7 :=
    hop.resolve_right fun hi => by simp [hi, aluClassOf] at h
  have hi (h : aluClassOf (w.extractLsb' 0 7) = .iClass) : w.extractLsb' 0 7 = 0x13#7 :=
    hop.resolve_left fun hr => by simp [hr, aluClassOf] at h
  cases hc : aluControl (aluClassOf (w.extractLsb' 0 7)) (w.extractLsb' 12 3) (w.extractLsb' 25 7) with
  | add =>
    obtain ⟨hclass, hfunct3, hfunct7⟩ := hadd.mp hc
    exact ⟨.instr (.add _ _ _), hr hclass, hfunct3, hfunct7, rfl, rfl, rfl⟩
  | xor =>
    obtain ⟨hclass, hfunct3, hfunct7⟩ := hxor.mp hc
    exact ⟨.instr (.xor _ _ _), hr hclass, hfunct3, hfunct7, rfl, rfl, rfl⟩
  | ori =>
    obtain ⟨hclass, hfunct3⟩ := hori.mp hc
    exact ⟨.instr (.ori _ _ _), hi hclass, hfunct3, rfl, rfl, rfl⟩
  | srai =>
    obtain ⟨hclass, hfunct3, hfunct7⟩ := hsrai.mp hc
    exact ⟨.instr (.srai _ _ _), hi hclass, hfunct3, hfunct7, rfl, rfl, rfl⟩
  | nop => exact ⟨.other .unmatchedAlu, hop, hc⟩

/-- Every word has one of the answers (30_encoding.md rules R61, R66). -/
theorem exists_selects (w : Word) : ∃ d, Selects w d := by
  by_cases hknown : w.extractLsb' 0 7 ∈ [0x37#7, 0x6F#7, 0x63#7, 0x23#7, 0x03#7, 0x13#7, 0x33#7]
  · simp only [List.mem_cons, List.not_mem_nil, or_false] at hknown
    rcases hknown with hop | hop | hop | hop | hop | hop | hop
    · exact ⟨.instr (.lui _ _), hop, rfl, rfl⟩
    · exact ⟨.instr (.jal _ _), hop, rfl, rfl⟩
    · by_cases hfunct3 : w.extractLsb' 12 3 = 0#3
      · exact ⟨.instr (.beq _ _ _), hop, hfunct3, rfl, rfl, rfl⟩
      · exact ⟨.other .otherBranch, hop, hfunct3⟩
    · by_cases h0 : w.extractLsb' 12 3 = 0#3
      · exact ⟨.instr (.sb _ _ _), hop, h0, rfl, rfl, rfl⟩
      · by_cases h2 : w.extractLsb' 12 3 = 2#3
        · exact ⟨.instr (.sw _ _ _), hop, h2, rfl, rfl, rfl⟩
        · exact ⟨.other (.otherStore _ _), hop, h0, h2, rfl, rfl⟩
    · by_cases h0 : w.extractLsb' 12 3 = 0#3
      · exact ⟨.instr (.lb _ _ _), hop, h0, rfl, rfl, rfl⟩
      · by_cases h2 : w.extractLsb' 12 3 = 2#3
        · exact ⟨.instr (.lw _ _ _), hop, h2, rfl, rfl, rfl⟩
        · exact ⟨.other (.otherLoad _ _), hop, h0, h2, rfl, rfl⟩
    · exact exists_selects_of_alu_opcode (.inr hop)
    · exact exists_selects_of_alu_opcode (.inl hop)
  · exact ⟨.other .unknownOpcode, hknown⟩

/-- The decoder's answer is the one whose row and operands the word has (30_encoding.md rules R61, R64, R66). -/
theorem decode_eq_iff_selects : decode w = d ↔ Selects w d := by
  refine ⟨fun h => ?_, decode_of_selects⟩
  obtain ⟨d', hd'⟩ := exists_selects w
  rwa [← h, decode_of_selects hd']

end

/-! ### A word rebuilt from its fields (30_encoding.md rule R63) -/

section
variable (w : Word)

theorem encodeR_of_fields :
    encodeR (w.extractLsb' 25 7) (w.extractLsb' 20 5) (w.extractLsb' 15 5) (w.extractLsb' 12 3) (w.extractLsb' 7 5)
      (w.extractLsb' 0 7) = w := by
  apply BitVec.eq_of_getLsbD_eq
  intro k hk
  simp only [encodeR, BitVec.getLsbD_append, BitVec.getLsbD_extractLsb']
  interval_cases k <;> simp

theorem encodeI_of_fields :
    encodeI (immI w) (w.extractLsb' 15 5) (w.extractLsb' 12 3) (w.extractLsb' 7 5) (w.extractLsb' 0 7) = w := by
  apply BitVec.eq_of_getLsbD_eq
  intro k hk
  simp only [encodeI, BitVec.getLsbD_append, BitVec.getLsbD_extractLsb']
  interval_cases k <;> simp [immI_getLsbD, -BitVec.getLsbD_eq_getElem]

theorem encodeS_of_fields :
    encodeS (immS w) (w.extractLsb' 20 5) (w.extractLsb' 15 5) (w.extractLsb' 12 3) (w.extractLsb' 0 7) = w := by
  apply BitVec.eq_of_getLsbD_eq
  intro k hk
  simp only [encodeS, BitVec.getLsbD_append, BitVec.getLsbD_extractLsb']
  interval_cases k <;> simp [immS_getLsbD, -BitVec.getLsbD_eq_getElem]

theorem encodeB_of_fields :
    encodeB (immB w) (w.extractLsb' 20 5) (w.extractLsb' 15 5) (w.extractLsb' 12 3) (w.extractLsb' 0 7) = w := by
  apply BitVec.eq_of_getLsbD_eq
  intro k hk
  simp only [encodeB, BitVec.getLsbD_append, BitVec.getLsbD_extractLsb']
  interval_cases k <;> simp [immB_getLsbD, -BitVec.getLsbD_eq_getElem]

theorem encodeU_of_fields : encodeU (immU w) (w.extractLsb' 7 5) (w.extractLsb' 0 7) = w := by
  apply BitVec.eq_of_getLsbD_eq
  intro k hk
  simp only [encodeU, BitVec.getLsbD_append, BitVec.getLsbD_extractLsb']
  interval_cases k <;> simp [immU_getLsbD, -BitVec.getLsbD_eq_getElem]

theorem encodeJ_of_fields : encodeJ (immJ w) (w.extractLsb' 7 5) (w.extractLsb' 0 7) = w := by
  apply BitVec.eq_of_getLsbD_eq
  intro k hk
  simp only [encodeJ, BitVec.getLsbD_append, BitVec.getLsbD_extractLsb']
  interval_cases k <;> simp [immJ_getLsbD, -BitVec.getLsbD_eq_getElem]

end

/-- The word of an answer is the instruction's encoding, bit for bit. -/
theorem encode_of_selects {w : Word} {i : Instr} (h : Selects w (.instr i)) : encode i = w := by
  match i, h with
  | .lui _ _, ⟨hop, rfl, rfl⟩ => rw [encode, ← hop, encodeU_of_fields]
  | .jal _ _, ⟨hop, rfl, rfl⟩ => rw [encode, ← hop, encodeJ_of_fields]
  | .beq _ _ _, ⟨hop, hfunct3, rfl, rfl, rfl⟩ => rw [encode, ← hop, ← hfunct3, encodeB_of_fields]
  | .lb _ _ _, ⟨hop, hfunct3, rfl, rfl, rfl⟩
  | .lw _ _ _, ⟨hop, hfunct3, rfl, rfl, rfl⟩
  | .ori _ _ _, ⟨hop, hfunct3, rfl, rfl, rfl⟩ => rw [encode, ← hop, ← hfunct3, encodeI_of_fields]
  | .sb _ _ _, ⟨hop, hfunct3, rfl, rfl, rfl⟩
  | .sw _ _ _, ⟨hop, hfunct3, rfl, rfl, rfl⟩ => rw [encode, ← hop, ← hfunct3, encodeS_of_fields]
  | .add _ _ _, ⟨hop, hfunct3, hfunct7, rfl, rfl, rfl⟩
  | .xor _ _ _, ⟨hop, hfunct3, hfunct7, rfl, rfl, rfl⟩
  | .srai _ _ _, ⟨hop, hfunct3, hfunct7, rfl, rfl, rfl⟩ =>
    rw [encode, ← hop, ← hfunct3, ← hfunct7, encodeR_of_fields]

/-! ### The fields of an encoded word (30_encoding.md rule R63) -/

section
variable (imm : Word) (rd rs1 rs2 : RegIdx) (opcode : BitVec 7) (funct3 : BitVec 3) (funct7 : BitVec 7)

/-- The field of rd stands above the opcode. -/
theorem rd_eq_extractLsb' {n : Nat} (x : BitVec n) : rd = (x ++ rd ++ opcode).extractLsb' 7 5 := by
  rw [BitVec.extractLsb'_append_eq_of_le (by decide), BitVec.extractLsb'_append_eq_right]

/-- The field of rs1 stands above the opcode, five bits of another field, and funct3. -/
theorem rs1_eq_extractLsb' {n : Nat} (x : BitVec n) (y : BitVec 5) :
    rs1 = (x ++ rs1 ++ funct3 ++ y ++ opcode).extractLsb' 15 5 := by
  rw [BitVec.extractLsb'_append_eq_of_le (by decide), BitVec.extractLsb'_append_eq_of_le (by decide),
    BitVec.extractLsb'_append_eq_of_le (by decide), BitVec.extractLsb'_append_eq_right]

/-- The field of rs2 stands above the field of rs1. -/
theorem rs2_eq_extractLsb' {n : Nat} (x : BitVec n) (y : BitVec 5) :
    rs2 = (x ++ rs2 ++ rs1 ++ funct3 ++ y ++ opcode).extractLsb' 20 5 := by
  rw [BitVec.extractLsb'_append_eq_of_le (by decide), BitVec.extractLsb'_append_eq_of_le (by decide),
    BitVec.extractLsb'_append_eq_of_le (by decide), BitVec.extractLsb'_append_eq_of_le (by decide),
    BitVec.extractLsb'_append_eq_right]

theorem encodeR_registers :
    rd = (encodeR funct7 rs2 rs1 funct3 rd opcode).extractLsb' 7 5 ∧
      rs1 = (encodeR funct7 rs2 rs1 funct3 rd opcode).extractLsb' 15 5 ∧
      rs2 = (encodeR funct7 rs2 rs1 funct3 rd opcode).extractLsb' 20 5 :=
  ⟨rd_eq_extractLsb' .., rs1_eq_extractLsb' .., rs2_eq_extractLsb' ..⟩

theorem encodeI_registers :
    rd = (encodeI imm rs1 funct3 rd opcode).extractLsb' 7 5 ∧
      rs1 = (encodeI imm rs1 funct3 rd opcode).extractLsb' 15 5 :=
  ⟨rd_eq_extractLsb' .., rs1_eq_extractLsb' ..⟩

theorem encodeS_registers :
    rs2 = (encodeS imm rs2 rs1 funct3 opcode).extractLsb' 20 5 ∧
      rs1 = (encodeS imm rs2 rs1 funct3 opcode).extractLsb' 15 5 :=
  ⟨rs2_eq_extractLsb' .., rs1_eq_extractLsb' ..⟩

theorem encodeU_register : rd = (encodeU imm rd opcode).extractLsb' 7 5 := rd_eq_extractLsb' ..

theorem encodeJ_register : rd = (encodeJ imm rd opcode).extractLsb' 7 5 := rd_eq_extractLsb' ..

theorem encodeB_registers :
    rs1 = (encodeB imm rs2 rs1 funct3 opcode).extractLsb' 15 5 ∧
      rs2 = (encodeB imm rs2 rs1 funct3 opcode).extractLsb' 20 5 := by
  refine ⟨?_, ?_⟩ <;>
  · apply BitVec.eq_of_getLsbD_eq
    intro k hk
    simp only [encodeB, BitVec.getLsbD_append, BitVec.getLsbD_extractLsb']
    interval_cases k <;> simp

/-- A bit of an immediate that fits `n + 1` signed bits: the bits above repeat bit `n` (30_encoding.md rule R60). -/
theorem getLsbD_of_immFitsSigned {imm : Word} {n k : Nat} (h : immFitsSigned (n + 1) imm = true) (hk : k < 32) :
    imm.getLsbD k = imm.getLsbD (min k n) := by
  have himm : imm = (imm.setWidth (n + 1)).signExtend 32 := beq_iff_eq.mp h
  conv_lhs => rw [himm]
  rw [getLsbD_signExtend_word _ hk, BitVec.getLsbD_setWidth, decide_eq_true (by omega), Bool.true_and]

section
variable {imm}

/-- A branch offset is even (30_encoding.md rule R55). -/
theorem getLsbD_zero_of_immFitsB (h : immFitsB imm = true) : imm.getLsbD 0 = false :=
  (Bool.not_eq_true' _).mp (Bool.and_eq_true_iff.mp h).2

/-- A jump offset is even (30_encoding.md rule R54). -/
theorem getLsbD_zero_of_immFitsJ (h : immFitsJ imm = true) : imm.getLsbD 0 = false :=
  (Bool.not_eq_true' _).mp (Bool.and_eq_true_iff.mp h).2

theorem immI_encodeI (h : immFits12 imm = true) : imm = immI (encodeI imm rs1 funct3 rd opcode) := by
  apply BitVec.eq_of_getLsbD_eq
  intro k hk
  rw [getLsbD_of_immFitsSigned h hk, immI_getLsbD _ hk]
  simp only [encodeI, BitVec.getLsbD_append, BitVec.getLsbD_extractLsb']
  interval_cases k <;> simp

theorem immS_encodeS (h : immFits12 imm = true) : imm = immS (encodeS imm rs2 rs1 funct3 opcode) := by
  apply BitVec.eq_of_getLsbD_eq
  intro k hk
  rw [getLsbD_of_immFitsSigned h hk, immS_getLsbD _ hk]
  simp only [encodeS, BitVec.getLsbD_append, BitVec.getLsbD_extractLsb']
  interval_cases k <;> simp

theorem immB_encodeB (h : immFitsB imm = true) : imm = immB (encodeB imm rs2 rs1 funct3 opcode) := by
  obtain ⟨hfits, -⟩ := Bool.and_eq_true_iff.mp h
  apply BitVec.eq_of_getLsbD_eq
  intro k hk
  rw [getLsbD_of_immFitsSigned hfits hk, immB_getLsbD _ hk]
  simp only [encodeB, BitVec.getLsbD_append, BitVec.getLsbD_extractLsb']
  interval_cases k <;> simp [getLsbD_zero_of_immFitsB h, -BitVec.getLsbD_eq_getElem]

theorem immJ_encodeJ (h : immFitsJ imm = true) : imm = immJ (encodeJ imm rd opcode) := by
  obtain ⟨hfits, -⟩ := Bool.and_eq_true_iff.mp h
  apply BitVec.eq_of_getLsbD_eq
  intro k hk
  rw [getLsbD_of_immFitsSigned hfits hk, immJ_getLsbD _ hk]
  simp only [encodeJ, BitVec.getLsbD_append, BitVec.getLsbD_extractLsb']
  interval_cases k <;> simp [getLsbD_zero_of_immFitsJ h, -BitVec.getLsbD_eq_getElem]

theorem immU_encodeU (h : immFitsU imm = true) : imm = immU (encodeU imm rd opcode) := by
  have hlow : imm.setWidth 12 = 0#12 := beq_iff_eq.mp h
  have hbit {k : Nat} (hk : k < 12) : imm.getLsbD k = false := by
    simpa [hk] using congrArg (BitVec.getLsbD · k) hlow
  apply BitVec.eq_of_getLsbD_eq
  intro k hk
  rw [immU_getLsbD _ hk]
  simp only [encodeU, BitVec.getLsbD_append, BitVec.getLsbD_extractLsb']
  interval_cases k <;> simp [hbit, -BitVec.getLsbD_eq_getElem]

end

end

/-- Every instruction's encoding is selected by its row's mask and match (30_encoding.md rule R64). -/
theorem encode_and_maskOf (i : Instr) : encode i &&& Laws.maskOf i = Laws.matchOf i := by
  cases i with
  | lui rd imm => exact Laws.Encoding.lui rd imm
  | jal rd imm => exact Laws.Encoding.jal rd imm
  | beq rs1 rs2 imm => exact Laws.Encoding.beq rs1 rs2 imm
  | lb rd rs1 imm => exact Laws.Encoding.lb rd rs1 imm
  | lw rd rs1 imm => exact Laws.Encoding.lw rd rs1 imm
  | sb rs2 rs1 imm => exact Laws.Encoding.sb rs2 rs1 imm
  | sw rs2 rs1 imm => exact Laws.Encoding.sw rs2 rs1 imm
  | add rd rs1 rs2 => exact Laws.Encoding.add rd rs1 rs2
  | xor rd rs1 rs2 => exact Laws.Encoding.xor rd rs1 rs2
  | ori rd rs1 imm => exact Laws.Encoding.ori rd rs1 imm
  | srai rd rs1 shamt => exact Laws.Encoding.srai rd rs1 shamt

/-- A well-formed instruction's encoding has the instruction's row and operands. -/
theorem selects_encode {i : Instr} (h : wellFormed i = true) : Selects (encode i) (.instr i) := by
  have hrow := encode_and_maskOf i
  cases i <;> simp only [Laws.maskOf, Laws.matchOf] at hrow
  case lui rd imm => exact ⟨extractLsb'_of_and_eq rfl hrow, encodeU_register .., immU_encodeU _ _ h⟩
  case jal rd imm => exact ⟨extractLsb'_of_and_eq rfl hrow, encodeJ_register .., immJ_encodeJ _ _ h⟩
  case beq rs1 rs2 imm =>
    obtain ⟨hrs1, hrs2⟩ := encodeB_registers imm rs1 rs2 0x63#7 0#3
    exact ⟨extractLsb'_of_and_eq rfl hrow, extractLsb'_of_and_eq rfl hrow, hrs1, hrs2, immB_encodeB _ _ _ _ h⟩
  case lb rd rs1 imm | lw rd rs1 imm | ori rd rs1 imm =>
    obtain ⟨hrd, hrs1⟩ := encodeI_registers imm rd rs1 _ _
    exact ⟨extractLsb'_of_and_eq rfl hrow, extractLsb'_of_and_eq rfl hrow, hrd, hrs1, immI_encodeI _ _ _ _ h⟩
  case sb rs2 rs1 imm | sw rs2 rs1 imm =>
    obtain ⟨hrs2, hrs1⟩ := encodeS_registers imm rs1 rs2 _ _
    exact ⟨extractLsb'_of_and_eq rfl hrow, extractLsb'_of_and_eq rfl hrow, hrs2, hrs1, immS_encodeS _ _ _ _ h⟩
  case add rd rs1 rs2 | xor rd rs1 rs2 | srai rd rs1 rs2 =>
    obtain ⟨hrd, hrs1, hrs2⟩ := encodeR_registers rd rs1 rs2 _ _ _
    exact ⟨extractLsb'_of_and_eq rfl hrow, extractLsb'_of_and_eq rfl hrow, extractLsb'_of_and_eq rfl hrow, hrd, hrs1,
      hrs2⟩

/-! ### The immediates are in their formats' ranges (30_encoding.md rule R60) -/

/-- What is sign-extended from `n + 1` bits fits `n + 1` signed bits. -/
theorem immFitsSigned_signExtend {n : Nat} (hn : n + 1 ≤ 32) (x : BitVec (n + 1)) :
    immFitsSigned (n + 1) (x.signExtend 32) = true := by
  rw [immFitsSigned, BitVec.setWidth_eq_extractLsb' hn, extractLsb'_signExtend_low x le_rfl hn,
    BitVec.extractLsb'_eq_self, beq_self_eq_true]

section
variable (w : Word)

theorem immFitsU_immU : immFitsU (immU w) = true := by
  rw [immFitsU, BitVec.setWidth_eq_extractLsb' (by decide), immU, BitVec.extractLsb'_append_eq_right, beq_self_eq_true]

theorem immFitsJ_immJ : immFitsJ (immJ w) = true := by
  rw [immFitsJ, immJ_getLsbD w (by decide), immJ, immFitsSigned_signExtend (by decide)]
  rfl

theorem immFitsB_immB : immFitsB (immB w) = true := by
  rw [immFitsB, immB_getLsbD w (by decide), immB, immFitsSigned_signExtend (by decide)]
  rfl

theorem immFits12_immS : immFits12 (immS w) = true := immFitsSigned_signExtend (by decide) _

theorem immFits12_immI : immFits12 (immI w) = true := immFitsSigned_signExtend (by decide) _

end

/-! ### The obligations -/

/-- Settles O1: the encoding has the instruction's row, by mask and match, and its operands in the fields, so it is the
decoder's answer. -/
theorem decodeOfEncode : Obligations.DecodeOfEncode := by
  unfold Obligations.DecodeOfEncode
  intro i hwf
  exact decode_of_selects (selects_encode hwf)

/-- Settles O2: the decoder's answer says which row the word has and that the operands are its fields, and the layout of
those fields is the word. -/
theorem encodeOfDecode : Obligations.EncodeOfDecode := by
  unfold Obligations.EncodeOfDecode
  intro w i hdecode
  exact encode_of_selects (decode_eq_iff_selects.mp hdecode)

/-- Settles O3: the immediate of a decoded instruction is its format's, which is in the format's range. -/
theorem decodedIsWellFormed : Obligations.DecodedIsWellFormed := by
  unfold Obligations.DecodedIsWellFormed
  intro w i hdecode
  match i, decode_eq_iff_selects.mp hdecode with
  | .lui _ _, ⟨_, _, rfl⟩ => exact immFitsU_immU w
  | .jal _ _, ⟨_, _, rfl⟩ => exact immFitsJ_immJ w
  | .beq _ _ _, ⟨_, _, _, _, rfl⟩ => exact immFitsB_immB w
  | .lb _ _ _, ⟨_, _, _, _, rfl⟩
  | .lw _ _ _, ⟨_, _, _, _, rfl⟩
  | .ori _ _ _, ⟨_, _, _, _, rfl⟩ => exact immFits12_immI w
  | .sb _ _ _, ⟨_, _, _, _, rfl⟩
  | .sw _ _ _, ⟨_, _, _, _, rfl⟩ => exact immFits12_immS w
  | .add _ _ _, _
  | .xor _ _ _, _
  | .srai _ _ _, _ => rfl

/-- A word that decodes to an instruction is selected by the instruction's mask and match (30_encoding.md rule R64). -/
theorem and_maskOf_of_decode {w : Word} {i : Instr} (h : decode w = .instr i) :
    w &&& Laws.maskOf i = Laws.matchOf i :=
  encodeOfDecode w i h ▸ encode_and_maskOf i

/-- Settles O4: a row's mask covers the opcode and functs that select its instruction, and a word that decodes to the
instruction is its encoding, which the mask and match select. -/
theorem opcodeMapSelects : Obligations.OpcodeMapSelects := by
  unfold Obligations.OpcodeMapSelects
  intro w
  have hfield {mask m : Word} (h : w &&& mask = m) {start len : Nat}
      (hmask : mask.extractLsb' start len = BitVec.allOnes len) :
      w.extractLsb' start len = m.extractLsb' start len := extractLsb'_of_and_eq hmask h
  exact ⟨⟨fun h => decode_of_selects ⟨hfield h rfl, rfl, rfl⟩, and_maskOf_of_decode⟩,
    ⟨fun h => decode_of_selects ⟨hfield h rfl, rfl, rfl⟩, and_maskOf_of_decode⟩,
    ⟨fun h => decode_of_selects ⟨hfield h rfl, hfield h rfl, rfl, rfl, rfl⟩, and_maskOf_of_decode⟩,
    ⟨fun h => decode_of_selects ⟨hfield h rfl, hfield h rfl, rfl, rfl, rfl⟩, and_maskOf_of_decode⟩,
    ⟨fun h => decode_of_selects ⟨hfield h rfl, hfield h rfl, rfl, rfl, rfl⟩, and_maskOf_of_decode⟩,
    ⟨fun h => decode_of_selects ⟨hfield h rfl, hfield h rfl, rfl, rfl, rfl⟩, and_maskOf_of_decode⟩,
    ⟨fun h => decode_of_selects ⟨hfield h rfl, hfield h rfl, rfl, rfl, rfl⟩, and_maskOf_of_decode⟩,
    ⟨fun h => decode_of_selects ⟨hfield h rfl, hfield h rfl, hfield h rfl, rfl, rfl, rfl⟩, and_maskOf_of_decode⟩,
    ⟨fun h => decode_of_selects ⟨hfield h rfl, hfield h rfl, hfield h rfl, rfl, rfl, rfl⟩, and_maskOf_of_decode⟩,
    ⟨fun h => decode_of_selects ⟨hfield h rfl, hfield h rfl, rfl, rfl, rfl⟩, and_maskOf_of_decode⟩,
    ⟨fun h => decode_of_selects ⟨hfield h rfl, hfield h rfl, hfield h rfl, rfl, rfl, rfl⟩, and_maskOf_of_decode⟩⟩

/-- Settles O11: the decoder, run on the eight words. -/
theorem sampleWordsDecode : Obligations.SampleWordsDecode := by
  unfold Obligations.SampleWordsDecode
  decide

end Sys2Proof
end

section
/-! PROOF. The load-store family and ADD: the bounds on the unsigned reading and the mixed-width reads (20_memory.md
sections 1 and 6), LB, LW, SB and SW in bounds and out of bounds (43_loads_stores.md), ADD (44_integer_alu.md rule
R130), and a destination of x0 (10_state.md section 1). -/

namespace Sys2Proof.Machine

/-! ### Mixed widths (20_memory.md section 6) -/

/-- The three upper bytes of a word, under a byte above them. -/
theorem wordOfBytes_upper_bytes (v : Word) (b : Byte) :
    wordOfBytes (byteOfWord v 1) (byteOfWord v 2) (byteOfWord v 3) b = b ++ v.extractLsb' 8 24 := by
  apply BitVec.eq_of_getLsbD_eq
  intro k hk
  simp only [wordOfBytes, byteOfWord, BitVec.getLsbD_append, BitVec.getLsbD_extractLsb']
  interval_cases k <;> simp

/-- A small displacement from an address of the data memory does not wrap. -/
theorem toNat_add_ofNat {a : Word} (ha : a.toNat ≤ 4092) {k : Nat} (hk : k ≤ 4) :
    (a + BitVec.ofNat 32 k).toNat = a.toNat + k := by
  rw [BitVec.toNat_add, BitVec.toNat_ofNat]
  omega

/-! ### A store that answers -/

/-- A byte store that answers was in bounds, its byte is in the memory it answers, and it keeps the canonical form. -/
theorem Memory.writeByte_eq_some {m m' : Memory} {a v : Word} (h : m.writeByte a v = some m') :
    inBounds a .byte = true ∧ (m.wf → m'.wf) ∧
      ∀ x, m'.read x = if x = a.toNat then byteOfWord v 0 else m.read x := by
  cases hb : inBounds a .byte with
  | false => simp [Memory.writeByte_of_rejected hb] at h
  | true =>
    obtain ⟨m'', hw, hwf, hread⟩ := Memory.writeByte_of_inBounds (m := m) v hb
    obtain rfl : m'' = m' := Option.some.inj (hw.symm.trans h)
    exact ⟨rfl, hwf, hread⟩

/-! ### Loads and stores in bounds (43_loads_stores.md rules R117 to R120) -/

section
variable {s : State} {r rs1 : RegIdx} {imm : Word}

theorem exec_lb_of_readByte {b : Byte} (h : s.mem.readByte (s.effAddr rs1 imm) = some b) :
    exec (.lb r rs1 imm) s = .next ((s.setReg r (b.signExtend 32)).retire s.nextPc false) := by
  simp only [exec, execLb, h, Option.map_some, State.finishLoad]

theorem exec_sb_of_writeByte {m : Memory} (h : s.mem.writeByte (s.effAddr rs1 imm) (s.reg r) = some m) :
    exec (.sb r rs1 imm) s = .next (State.retire { s with mem := m } s.nextPc false) := by
  simp only [exec, execSb, h, State.finishStore]

end

/-- ADD writes the sum and goes on (44_integer_alu.md rule R130). -/
theorem exec_add (s : State) (rd rs1 rs2 : RegIdx) :
    exec (.add rd rs1 rs2) s = .next ((s.setReg rd (s.reg rs1 + s.reg rs2)).retire s.nextPc false) := rfl

/-- LUI writes its immediate and goes on (41_upper_immediate.md rule R100). -/
theorem exec_lui (s : State) (rd : RegIdx) (imm : Word) :
    exec (.lui rd imm) s = .next ((s.setReg rd imm).retire s.nextPc false) := rfl

/-- A store that is accepted replaces the data memory and goes on: every register is kept, and the step completes. -/
theorem State.retire_mem_frame (s : State) (m : Memory) :
    RegsKept s (State.retire { s with mem := m } s.nextPc false) ∧
      Completes s (State.retire { s with mem := m } s.nextPc false) (s.pc + 4) false :=
  ⟨fun _ => rfl, rfl, rfl, ⟨rfl, rfl⟩, rfl, rfl⟩

/-! ### The violation (60_exceptions.md rules R151, R153) -/

/-- The latch's value for a rejected access of a kind (60_exceptions.md rule R151). -/
def AccessKind.faultStatus : AccessKind → Status
  | .load => .loadFault
  | .store => .storeFault

/-- A memory-bound violation changes the latch and the recorded address, and nothing else (rule R153). -/
theorem State.raise_haltsWith (s : State) (kind : AccessKind) (ea : Word) :
    HaltsWith s (s.raise (.memBound kind ea)) kind.faultStatus ea :=
  ⟨by cases kind <;> rfl, s.raise_mem_faultAddr kind ea, s.raise_pc _, s.raise_noop _, s.raise_regsKept _,
    s.raise_memKept _, s.raise_imem _, s.raise_validLength _⟩

/-! ### The instruction under another destination -/

/-- An instruction with a destination is either the same write whatever its destination, or the same violation
(10_state.md rule R11; decision D21). -/
theorem exec_withDest_cases (s : State) {i : Instr} (h : destOf i ≠ none) :
    (∃ v p, ∀ r, exec (withDest i r) s = .next ((s.setReg r v).retire p false)) ∨
      ∃ c, ∀ r, exec (withDest i r) s = .next (s.raise c) := by
  cases i with
  | beq | sb | sw => exact absurd rfl h
  | lui _ imm => exact .inl ⟨_, _, fun r => exec_lui s r imm⟩
  | jal _ imm => exact .inl ⟨_, _, fun r => exec_jal s r imm⟩
  | add _ rs1 rs2 => exact .inl ⟨_, _, fun r => exec_add s r rs1 rs2⟩
  | xor _ rs1 rs2 => exact .inl ⟨_, _, fun r => exec_xor s r rs1 rs2⟩
  | ori _ rs1 imm => exact .inl ⟨_, _, fun r => exec_ori s r rs1 imm⟩
  | srai _ rs1 shamt => exact .inl ⟨_, _, fun r => exec_srai s r rs1 shamt⟩
  | lb _ rs1 imm =>
    cases hb : inBounds (s.effAddr rs1 imm) .byte with
    | true => exact .inl ⟨_, _, fun r => exec_lb_of_readByte (Memory.readByte_of_inBounds hb)⟩
    | false => exact .inr ⟨_, fun r => exec_lb_of_rejected hb⟩
  | lw _ rs1 imm =>
    cases hb : inBounds (s.effAddr rs1 imm) .word with
    | true => exact .inl ⟨_, _, fun r => exec_lw_of_readWord (Memory.readWord_of_inBounds hb)⟩
    | false => exact .inr ⟨_, fun r => exec_lw_of_rejected hb⟩

/-! ### The obligations -/

/-- Settles O13: both tests on the signed reading accept the patterns the unsigned reading bounds. -/
theorem signedAndUnsignedBoundsAgree : Obligations.SignedAndUnsignedBoundsAgree := by
  unfold Obligations.SignedAndUnsignedBoundsAgree
  exact fun a => ⟨inBounds_byte_iff_toNat a, inBounds_word_iff_toNat a⟩

/-- Settles O15: neither address wraps, so each read finds the bytes the store left at its own offsets. -/
theorem mixedWidthReads : Obligations.MixedWidthReads := by
  unfold Obligations.MixedWidthReads
  intro m m' a v hw
  obtain ⟨hb, hread⟩ := Memory.writeWord_eq_some hw
  have ha : a.toNat ≤ 4092 := (inBounds_word_iff_toNat a).mp hb
  constructor
  · intro k hk
    have haddr : (a + BitVec.ofNat 32 k).toNat = a.toNat + k := toNat_add_ofNat ha hk.le
    rw [Memory.readByte_of_inBounds ((inBounds_byte_iff_toNat _).mpr (by omega)), haddr, hread, if_pos (by omega),
      Nat.add_sub_cancel_left, byteOfWord]
  · intro hle
    have haddr : (a + 1).toNat = a.toNat + 1 := toNat_add_ofNat ha (k := 1) (by decide)
    rw [Memory.readWord_of_inBounds ((inBounds_word_iff_toNat _).mpr (by omega)), haddr, ← wordOfBytes_upper_bytes]
    simp [hread, Nat.add_assoc]

/-- Settles O19: in bounds the read answers, and LB writes the sign-extended byte to `rd` and goes on. -/
theorem lbResult : Obligations.LbResult := by
  unfold Obligations.LbResult
  intro s rd rs1 imm hlo hhi
  have hb : inBounds (s.effAddr rs1 imm) .byte = true := (inBounds_byte_iff _).mpr ⟨hlo, hhi⟩
  exact ⟨_, exec_lb_of_readByte (Memory.readByte_of_inBounds hb), s.retire_setReg_regWritten rd _ _ _,
    s.retire_setReg_memKept rd _ _ _, s.retire_setReg_completes rd _ _ _⟩

/-- Settles O20: in bounds the read answers the four bytes, and LW writes them to `rd` and goes on. -/
theorem lwResult : Obligations.LwResult := by
  unfold Obligations.LwResult
  intro s rd rs1 imm hlo hhi
  have hb : inBounds (s.effAddr rs1 imm) .word = true :=
    (inBounds_word_iff (s.reg rs1 + imm)).mpr ⟨⟨hlo, by omega⟩, hhi⟩
  exact ⟨_, exec_lw_of_readWord (Memory.readWord_of_inBounds hb), s.retire_setReg_regWritten rd _ _ _,
    s.retire_setReg_memKept rd _ _ _, s.retire_setReg_completes rd _ _ _⟩

/-- Settles O21: in bounds the write answers a memory that differs in the one byte. -/
theorem sbResult : Obligations.SbResult := by
  unfold Obligations.SbResult
  intro s rs2 rs1 imm hlo hhi
  obtain ⟨m, hw, -, hread⟩ :=
    Memory.writeByte_of_inBounds (m := s.mem) (s.reg rs2) ((inBounds_byte_iff _).mpr ⟨hlo, hhi⟩)
  refine ⟨rfl, _, exec_sb_of_writeByte hw, (hread _).trans (if_pos rfl), fun b hb => ?_, s.retire_mem_frame m⟩
  exact (hread b).trans (if_neg (by omega))

/-- Settles O22: in bounds the write answers a memory that differs in the four bytes. -/
theorem swResult : Obligations.SwResult := by
  unfold Obligations.SwResult
  intro s rs2 rs1 imm hlo hhi
  obtain ⟨m, hw, -, hread⟩ :=
    Memory.writeWord_of_inBounds (m := s.mem) (s.reg rs2) ((inBounds_word_iff _).mpr ⟨⟨hlo, by omega⟩, hhi⟩)
  refine ⟨rfl, _, exec_sw_of_writeWord hw, fun k hk => ?_, fun b hb => (hread b).trans (if_neg hb),
    s.retire_mem_frame m⟩
  rw [State.retire_mem, hread, if_pos (by omega), Nat.add_sub_cancel_left, byteOfWord]

/-- Settles O23: out of bounds each of the four raises the violation, whose frame is the statement's. -/
theorem memoryViolationHaltsTheRun : Obligations.MemoryViolationHaltsTheRun := by
  unfold Obligations.MemoryViolationHaltsTheRun
  intro s r rs1 imm
  constructor
  · intro hout
    have hb : inBounds (s.effAddr rs1 imm) .byte = false :=
      Bool.eq_false_iff.mpr fun h => hout ((inBounds_byte_iff _).mp h)
    exact ⟨⟨_, exec_lb_of_rejected hb, s.raise_haltsWith .load _⟩,
      ⟨_, exec_sb_of_rejected hb, s.raise_haltsWith .store _⟩⟩
  · intro hout
    have hb : inBounds (s.effAddr rs1 imm) .word = false :=
      Bool.eq_false_iff.mpr fun h => hout (((inBounds_word_iff _).mp h).imp And.left id)
    exact ⟨⟨_, exec_lw_of_rejected hb, s.raise_haltsWith .load _⟩,
      ⟨_, exec_sw_of_rejected hb, s.raise_haltsWith .store _⟩⟩

/-- Settles O24: ADD writes the sum of the patterns, which is the exact sum narrowed to 32 bits, and goes on. -/
theorem addResult : Obligations.AddResult := by
  unfold Obligations.AddResult
  intro s rd rs1 rs2
  have hsum : BitVec.ofInt 32 ((s.reg rs1).toInt + (s.reg rs2).toInt) = s.reg rs1 + s.reg rs2 := by
    rw [BitVec.ofInt_add, BitVec.ofInt_toInt, BitVec.ofInt_toInt]
  rw [hsum]
  exact ⟨_, exec_add s rd rs1 rs2, s.retire_setReg_regWritten rd _ _ _, s.retire_setReg_memKept rd _ _ _,
    s.retire_setReg_completes rd _ _ _⟩

/-- Settles O28: the two forms make the same write to another register, of which x0 discards its own, or raise the same
violation. -/
theorem destinationZeroDiscardsOnlyTheWrite : Obligations.DestinationZeroDiscardsOnlyTheWrite := by
  unfold Obligations.DestinationZeroDiscardsOnlyTheWrite
  intro s i r hdest
  rcases exec_withDest_cases s hdest with ⟨v, p, hexec⟩ | ⟨c, hexec⟩
  · refine ⟨_, _, hexec 0#5, hexec r, fun _ => rfl, rfl, rfl, fun a => ?_, ⟨?_, ?_⟩, ?_, ?_⟩ <;> simp
  · exact ⟨_, _, hexec 0#5, hexec r, s.raise_regsKept c, rfl, rfl, fun _ => rfl, ⟨rfl, rfl⟩, rfl, rfl⟩

end Sys2Proof.Machine
end

section
/-! PROOF. The fetch, the launch and the shape of a step (20_memory.md sections 3 to 5, 70_reset_and_hazards.md section
2, 40_cycle_and_alu_control.md section 1): which word a step runs, that a placed word is the next to run, the steps that
end before the fetch, and that every step answers. The lemmas on the bytes of the buffer stand first. -/

namespace Sys2Proof.Machine

/-! ### The fetch and the bytes of the buffer (20_memory.md rules R35, R38) -/

/-- A byte inside the buffer is the one the fetch's default never replaces. -/
theorem getElem?_eq_some_getD {imem : List Byte} {n : Nat} (h : n < imem.length) : imem[n]? = some (imem.getD n 0) := by
  rw [List.getD_eq_getElem _ _ h, List.getElem?_eq_getElem h]

/-- The fetch answers a word exactly where the word's four bytes stand at the pc, least significant first. -/
theorem State.fetch_eq_some_iff {s : State} {w : Word} :
    s.fetch = some w ↔ ∀ k, k < 4 → s.imem[s.pc.toNat + k]? = some (byteOfWord w k) := by
  constructor
  · intro h k hk
    unfold State.fetch at h
    split at h
    next hlen =>
      obtain rfl := Option.some.inj h
      rw [getElem?_eq_some_getD (by omega)]
      obtain ⟨h0, h1, h2, h3⟩ := bytes_of_wordOfBytes (s.imem.getD s.pc.toNat 0) (s.imem.getD (s.pc.toNat + 1) 0)
        (s.imem.getD (s.pc.toNat + 2) 0) (s.imem.getD (s.pc.toNat + 3) 0)
      interval_cases k
      · rw [h0, Nat.add_zero]
      · rw [h1]
      · rw [h2]
      · rw [h3]
    next => exact nomatch h
  · intro h
    have hbyte {k : Nat} (hk : k < 4) : s.imem.getD (s.pc.toNat + k) 0 = byteOfWord w k := by
      rw [List.getD_eq_getElem?_getD, h k hk, Option.getD_some]
    obtain ⟨hlen, -⟩ := List.getElem?_eq_some_iff.mp (h 3 (by decide))
    have hbyte0 : s.imem.getD s.pc.toNat 0 = byteOfWord w 0 := hbyte (k := 0) (by decide)
    rw [State.fetch, if_pos hlen, hbyte0, hbyte (by decide), hbyte (by decide), hbyte (by decide), wordOfBytes_bytes]

/-! ### The launch (70_reset_and_hazards.md rule R172) -/

/-- The table's byte `k` of a word is the word's byte `k`. -/
theorem tableByte_toNat (w : Word) (k : Nat) : tableByte 32 w.toNat k = byteOfWord w k := by
  rw [tableByte, byteOfWord, BitVec.extractLsb', Nat.mod_eq_of_lt w.isLt, Nat.shiftRight_eq_div_pow]

section
variable {imem bs : List Byte} {k : Nat}

/-- What stands before the placed bytes has exactly their offset as its length. -/
theorem length_before_placed : (imem.take k ++ List.replicate (k - imem.length) 0).length = k := by
  simp only [List.length_append, List.length_take, List.length_replicate]
  omega

/-- The placed bytes stand at their offset. -/
theorem getElem?_placeBytes_inside {j : Nat} (hj : j < bs.length) : (placeBytes imem k bs)[k + j]? = bs[j]? := by
  have hlen := length_before_placed (imem := imem) (k := k)
  rw [placeBytes, List.getElem?_append_left (by rw [List.length_append, hlen]; omega),
    List.getElem?_append_right (by omega), hlen, Nat.add_sub_cancel_left]

/-- A byte of the buffer outside the placed ones is as before. -/
theorem getElem?_placeBytes_outside {n : Nat} (hn : n < imem.length) (hout : ¬ (k ≤ n ∧ n < k + bs.length)) :
    (placeBytes imem k bs)[n]? = imem[n]? := by
  have hlen := length_before_placed (imem := imem) (k := k)
  rcases Nat.lt_or_ge n k with hlt | hge
  · rw [placeBytes, List.getElem?_append_left (by rw [List.length_append, hlen]; omega),
      List.getElem?_append_left (by omega), List.getElem?_append_left (by rw [List.length_take]; omega),
      List.getElem?_take_of_lt hlt]
  · rw [placeBytes, List.getElem?_append_right (by rw [List.length_append, hlen]; omega), List.length_append, hlen,
      List.getElem?_drop, Nat.add_sub_cancel' (by omega)]

end

/-- The state with a word placed fetches the word. -/
theorem State.fetch_withFetchWord (s : State) (w : Word) : (s.withFetchWord 32 w.toNat).fetch = some w := by
  rw [State.fetch_eq_some_iff]
  intro k hk
  simp only [State.withFetchWord, State.placeWord, tableByte_toNat]
  rw [getElem?_placeBytes_inside hk]
  interval_cases k <;> rfl

/-! ### The ways into a step -/

/-- A step that the tests before the fetch end answers what they say (40_cycle_and_alu_control.md rule R81). -/
theorem step_of_ended {s t : State} (h : s.endedBeforeFetch = some t) : step s = .next t := by
  simp only [step, h]

/-- Every instruction answers a next state (60_exceptions.md rule R150). -/
theorem exists_exec_eq_next (i : Instr) (s : State) : ∃ t, exec i s = .next t := by
  cases i <;> exact ⟨_, rfl⟩

/-- Every other word answers a next state (30_encoding.md rule R66). -/
theorem exists_execOther_eq_next (o : OtherWord) (s : State) : ∃ t, execOther o s = .next t := by
  cases o <;> exact ⟨_, rfl⟩

/-- Where a step stands before it executes a word: halted, past the program, at an invalid fetch, or at a word
(40_cycle_and_alu_control.md rules R81, R82). -/
theorem State.classes_before_exec (s : State) :
    s.status ≠ .running ∨ (s.status = .running ∧ s.validLength ≤ s.pc.toNat) ∨
      (s.status = .running ∧ s.pc.toNat < s.validLength ∧ s.imem.length ≤ s.pc.toNat + 3) ∨ ∃ w, s.runs w := by
  by_cases hrunning : s.status = .running
  · rcases Nat.lt_or_ge s.pc.toNat s.validLength with hlt | hge
    · cases hf : s.fetch with
      | none => exact .inr (.inr (.inl ⟨hrunning, hlt, State.fetch_eq_none.mp hf⟩))
      | some w => exact .inr (.inr (.inr ⟨w, hrunning, hlt, hf⟩))
    · exact .inr (.inl ⟨hrunning, hge⟩)
  · exact .inl hrunning

/-! ### The obligations -/

/-- Settles O31: a step that runs a word is the decoded word, by its two cases. -/
theorem stepRunsTheDecodedWord : Obligations.StepRunsTheDecodedWord := by
  unfold Obligations.StepRunsTheDecodedWord
  exact fun s w hw => ⟨fun _ => step_of_decode_instr hw, fun _ => step_of_decode_other hw⟩

/-- Settles O32: the four bytes make the fetch answer the encoding, which decodes to the instruction. -/
theorem stepRunsTheEncodedInstruction : Obligations.StepRunsTheEncodedInstruction := by
  unfold Obligations.StepRunsTheEncodedInstruction
  intro s i hwf hrunning hvalid hbytes
  have hw : s.runs (encode i) := ⟨hrunning, hvalid, State.fetch_eq_some_iff.mpr hbytes⟩
  exact step_of_decode_instr hw (decodeOfEncode i hwf)

/-- Settles O33: a fetch that answers has the word's bytes at the pc. -/
theorem fetchIsLittleEndian : Obligations.FetchIsLittleEndian := by
  unfold Obligations.FetchIsLittleEndian
  exact fun s w => State.fetch_eq_some_iff.mp

/-- Settles O34: the fetch fails exactly where its last byte is past the capacity. -/
theorem fetchIsValidInsideTheCapacity : Obligations.FetchIsValidInsideTheCapacity := by
  unfold Obligations.FetchIsValidInsideTheCapacity
  intro s
  rw [← Option.ne_none_iff_exists', Ne, State.fetch_eq_none, Nat.not_le]

/-- Settles O35: the placed bytes are the word's, inside the valid length of a running core, and every other byte is
where it was. -/
theorem placedWordIsTheNextToRun : Obligations.PlacedWordIsTheNextToRun := by
  unfold Obligations.PlacedWordIsTheNextToRun
  intro s w
  refine ⟨⟨s.withFetchWord_status _ _, ?_, s.fetch_withFetchWord w⟩, fun k hk hout => ?_⟩
  · show s.pc.toNat < max s.validLength (s.pc.toNat + 4)
    omega
  · exact getElem?_placeBytes_outside hk hout

/-- Settles O36: the first test before the fetch answers the same state. -/
theorem haltedStepChangesNothing : Obligations.HaltedStepChangesNothing := by
  unfold Obligations.HaltedStepChangesNothing
  exact fun s hhalted => step_of_ended (State.endedBeforeFetch_eq_some.mpr (.inl ⟨hhalted, rfl⟩))

/-- Settles O37: the second test before the fetch completes the run. -/
theorem completionAtTheValidLength : Obligations.CompletionAtTheValidLength := by
  unfold Obligations.CompletionAtTheValidLength
  exact fun s hrunning hle => step_of_ended (State.endedBeforeFetch_eq_some.mpr (.inr ⟨hrunning, hle, rfl⟩))

/-- Every step answers a next state: each way into it ends at one. -/
theorem exists_step_eq_next (s : State) : ∃ t, step s = .next t := by
  rcases s.classes_before_exec with hhalted | ⟨hrunning, hge⟩ | ⟨hrunning, hlt, hcap⟩ | ⟨w, hw⟩
  · exact ⟨_, haltedStepChangesNothing s hhalted⟩
  · exact ⟨_, completionAtTheValidLength s hrunning hge⟩
  · exact ⟨_, fetchBoundViolationHalts s hrunning hlt hcap⟩
  · cases hd : decode w with
    | instr i => exact step_of_decode_instr hw hd ▸ exists_exec_eq_next i s
    | other o => exact step_of_decode_other hw hd ▸ exists_execOther_eq_next o s

/-- Settles O39: every way into a step, and every instruction, answers a next state. -/
theorem everyStepAnswersANextState : Obligations.EveryStepAnswersANextState := by
  unfold Obligations.EveryStepAnswersANextState
  exact ⟨exists_step_eq_next, exists_exec_eq_next⟩

end Sys2Proof.Machine
end

section
/-! PROOF. How a run ends (60_exceptions.md sections 2 and 5): the access a word makes and the bounds rule on it decide
a memory-bound halt, so the causes, the precise halt, the truthful latch and the words of another width are read off the
access. The access of a word, and the ways a running core's step ends, stand first. -/

namespace Sys2Proof.Machine

/-! ### The access a word makes (43_loads_stores.md rules R115, R116, R121, R122) -/

/-- An access to data memory, as the bounds rule sees it (20_memory.md rule R32). -/
structure Access where
  kind : AccessKind
  width : Width
  base : RegIdx
  offset : Word

/-- The access a decoded word makes, if it makes one; another width is tested as a byte (43_loads_stores.md section
4). -/
def accessOf : Decoded → Option Access
  | .instr (.lb _ rs1 imm) => some ⟨.load, .byte, rs1, imm⟩
  | .instr (.lw _ rs1 imm) => some ⟨.load, .word, rs1, imm⟩
  | .instr (.sb _ rs1 imm) => some ⟨.store, .byte, rs1, imm⟩
  | .instr (.sw _ rs1 imm) => some ⟨.store, .word, rs1, imm⟩
  | .other (.otherLoad rs1 imm) => some ⟨.load, .byte, rs1, imm⟩
  | .other (.otherStore rs1 imm) => some ⟨.store, .byte, rs1, imm⟩
  | _ => none

/-- The access's effective address (43_loads_stores.md rule R115). -/
def State.accessAddr (s : State) (a : Access) : Word := s.effAddr a.base a.offset

/-- The access passes the bounds rule (20_memory.md rule R32). -/
def State.accepts (s : State) (a : Access) : Bool := inBounds (s.accessAddr a) a.width

/-- What the core does with a decoded word (40_cycle_and_alu_control.md rule R84). -/
def execDecoded (s : State) : Decoded → StepOutcome
  | .instr i => exec i s
  | .other o => execOther o s

/-- A step that runs a word does what the decoded word does. -/
theorem step_eq_execDecoded {s : State} {w : Word} (hw : s.runs w) : step s = execDecoded s (decode w) := by
  cases hd : decode w with
  | instr i => exact step_of_decode_instr hw hd
  | other o => exact step_of_decode_other hw hd

/-- An access of another width is a no-operation in range (43_loads_stores.md rules R121, R122). -/
theorem State.otherWidth_of_inRange (s : State) (kind : AccessKind) {ea : Word} (h : inRange ea = true) :
    s.otherWidth kind ea = s.noOperation := if_pos h

/-- An access of another width is the kind's violation out of range (43_loads_stores.md rules R121, R122). -/
theorem State.otherWidth_of_not_inRange (s : State) (kind : AccessKind) {ea : Word} (h : inRange ea = false) :
    s.otherWidth kind ea = s.raise (.memBound kind ea) := if_neg (Bool.eq_false_iff.mp h)

section
variable {s t : State} {d : Decoded}

/-- A rejected access raises its violation, and the word does nothing else (20_memory.md rule R33). -/
theorem execDecoded_of_rejected {a : Access} (ha : accessOf d = some a) (hrej : s.accepts a = false) :
    execDecoded s d = .next (s.raise (.memBound a.kind (s.accessAddr a))) := by
  match d, ha with
  | .instr (.lb _ _ _), rfl => exact exec_lb_of_rejected hrej
  | .instr (.lw _ _ _), rfl => exact exec_lw_of_rejected hrej
  | .instr (.sb _ _ _), rfl => exact exec_sb_of_rejected hrej
  | .instr (.sw _ _ _), rfl => exact exec_sw_of_rejected hrej
  | .other (.otherLoad _ _), rfl
  | .other (.otherStore _ _), rfl => exact congrArg Host.Outcome.next (s.otherWidth_of_not_inRange _ hrej)

/-- A word whose access, if it makes one, is accepted leaves the latch (60_exceptions.md rule R151). -/
theorem latchKept_of_accepted (hacc : ∀ a, accessOf d = some a → s.accepts a = true)
    (h : execDecoded s d = .next t) : LatchKept s t := by
  have hwrite (rd : RegIdx) (v p : Word) : LatchKept s ((s.setReg rd v).retire p false) := by
    obtain ⟨-, -, hlatch, -⟩ := s.retire_setReg_completes rd v p false
    exact hlatch
  match d with
  | .instr (.lui _ _) | .instr (.jal _ _) | .instr (.add _ _ _) | .instr (.xor _ _ _) | .instr (.ori _ _ _)
  | .instr (.srai _ _ _) => exact Host.Outcome.next.inj h ▸ hwrite ..
  | .instr (.beq _ _ _) => exact Host.Outcome.next.inj h ▸ ⟨rfl, rfl⟩
  | .instr (.lb _ _ _) =>
    obtain rfl := Host.Outcome.next.inj ((exec_lb_of_readByte (Memory.readByte_of_inBounds (hacc _ rfl))).symm.trans h)
    exact hwrite ..
  | .instr (.lw _ _ _) =>
    obtain rfl := Host.Outcome.next.inj ((exec_lw_of_readWord (Memory.readWord_of_inBounds (hacc _ rfl))).symm.trans h)
    exact hwrite ..
  | .instr (.sb rs2 _ _) =>
    obtain ⟨m, hw, -⟩ := Memory.writeByte_of_inBounds (m := s.mem) (s.reg rs2) (hacc _ rfl)
    obtain rfl := Host.Outcome.next.inj ((exec_sb_of_writeByte hw).symm.trans h)
    exact ⟨rfl, rfl⟩
  | .instr (.sw rs2 _ _) =>
    obtain ⟨m, hw, -⟩ := Memory.writeWord_of_inBounds (m := s.mem) (s.reg rs2) (hacc _ rfl)
    obtain rfl := Host.Outcome.next.inj ((exec_sw_of_writeWord hw).symm.trans h)
    exact ⟨rfl, rfl⟩
  | .other .unknownOpcode | .other .unmatchedAlu | .other .otherBranch =>
    exact Host.Outcome.next.inj h ▸ ⟨rfl, rfl⟩
  | .other (.otherLoad rs1 imm) | .other (.otherStore rs1 imm) =>
    obtain rfl := Host.Outcome.next.inj h
    have hin : inRange (s.effAddr rs1 imm) = true := hacc _ rfl
    rw [s.otherWidth_of_inRange _ hin]
    exact ⟨rfl, rfl⟩

end

/-! ### The access of a word's bits (30_encoding.md rules R64 to R66) -/

/-- The opcode of the accesses of a kind. -/
def AccessKind.opcode : AccessKind → BitVec 7
  | .load => 0x03#7
  | .store => 0x23#7

/-- The displacement of the accesses of a kind (30_encoding.md rules R56, R57). -/
def AccessKind.immediate : AccessKind → Word → Word
  | .load => immI
  | .store => immS

/-- The access of a kind that the word's fields name; only funct3 2 is a word access (30_encoding.md rule R65). -/
def AccessKind.accessOfWord (kind : AccessKind) (w : Word) : Access where
  kind := kind
  width := if w.extractLsb' 12 3 = 2#3 then .word else .byte
  base := w.extractLsb' 15 5
  offset := kind.immediate w

section
variable {w : Word} {kind : AccessKind}

/-- A word with a kind's opcode makes the access its fields name. -/
theorem accessOf_decode (hop : w.extractLsb' 0 7 = kind.opcode) : accessOf (decode w) = some (kind.accessOfWord w) := by
  cases kind with
  | load =>
    rw [decode_of_load_opcode hop, AccessKind.accessOfWord]
    split_ifs with h0 h2
    · exact absurd (h0.symm.trans h2) (by decide)
    all_goals rfl
  | store =>
    rw [decode_of_store_opcode hop, AccessKind.accessOfWord]
    split_ifs with h0 h2
    · exact absurd (h0.symm.trans h2) (by decide)
    all_goals rfl

/-- A word that makes an access has the opcode of its kind. -/
theorem opcode_of_accessOf {a : Access} (h : accessOf (decode w) = some a) : w.extractLsb' 0 7 = a.kind.opcode := by
  have hsel : Selects w (decode w) := decode_eq_iff_selects.mp rfl
  match decode w, hsel, h with
  | .instr (.lb _ _ _), ⟨hop, _⟩, rfl
  | .instr (.lw _ _ _), ⟨hop, _⟩, rfl
  | .instr (.sb _ _ _), ⟨hop, _⟩, rfl
  | .instr (.sw _ _ _), ⟨hop, _⟩, rfl
  | .other (.otherLoad _ _), ⟨hop, _⟩, rfl
  | .other (.otherStore _ _), ⟨hop, _⟩, rfl => exact hop

/-- A word that makes an access makes the one its fields name. -/
theorem eq_accessOfWord_of_accessOf {a : Access} (h : accessOf (decode w) = some a) : a = a.kind.accessOfWord w :=
  Option.some.inj (h.symm.trans (accessOf_decode (opcode_of_accessOf h)))

/-- The bounds rule rejects the access the fields name exactly where the statement's two tests fail (20_memory.md rule
R32). -/
theorem accepts_accessOfWord_eq_false_iff {s : State} :
    s.accepts (kind.accessOfWord w) = false ↔
      (¬ (0 ≤ (s.reg (w.extractLsb' 15 5) + kind.immediate w).toInt ∧
          (s.reg (w.extractLsb' 15 5) + kind.immediate w).toInt < 4096) ∨
        (w.extractLsb' 12 3 = 2#3 ∧ (s.reg (w.extractLsb' 15 5) + kind.immediate w).toInt + 4 > 4096)) := by
  rw [State.accepts, show s.accessAddr (kind.accessOfWord w) = s.reg (w.extractLsb' 15 5) + kind.immediate w from rfl,
    AccessKind.accessOfWord, ← Bool.not_eq_true]
  generalize s.reg (w.extractLsb' 15 5) + kind.immediate w = ea
  split
  next hword =>
    rw [inBounds_word_iff, not_and_or, Int.not_le]
    exact or_congr_right (and_iff_right hword).symm
  next hbyte =>
    rw [inBounds_byte_iff]
    exact (or_iff_left fun h => hbyte h.1).symm

end

/-! ### The ways a step of a running core ends (60_exceptions.md section 2) -/

/-- A step of a running core completes the run, raises one of the two kinds of violation, or leaves the latch. -/
theorem step_running_cases {s t : State} (hrunning : s.status = .running) (h : step s = .next t) :
    (s.validLength ≤ s.pc.toNat ∧ t = s.complete) ∨
    (s.pc.toNat < s.validLength ∧ s.imem.length ≤ s.pc.toNat + 3 ∧ t = s.raise .fetchBound) ∨
    (∃ w a, s.runs w ∧ accessOf (decode w) = some a ∧ s.accepts a = false ∧
      t = s.raise (.memBound a.kind (s.accessAddr a))) ∨
    LatchKept s t := by
  have hruns {w : Word} (hw : s.runs w) :
      (∃ w a, s.runs w ∧ accessOf (decode w) = some a ∧ s.accepts a = false ∧
        t = s.raise (.memBound a.kind (s.accessAddr a))) ∨ LatchKept s t := by
    have hexec : execDecoded s (decode w) = .next t := (step_eq_execDecoded hw).symm.trans h
    by_cases hacc : ∀ a, accessOf (decode w) = some a → s.accepts a = true
    · exact .inr (latchKept_of_accepted hacc hexec)
    · push Not at hacc
      obtain ⟨a, ha, hrej⟩ := hacc
      have hrej : s.accepts a = false := Bool.eq_false_iff.mpr hrej
      exact .inl ⟨w, a, hw, ha, hrej,
        Host.Outcome.next.inj (hexec.symm.trans (execDecoded_of_rejected ha hrej))⟩
  rcases step_cases h with ⟨hhalted, -⟩ | ⟨-, hle, ht⟩ | ⟨-, hlt, hcap, ht⟩ | ⟨w, i, hw, -⟩ | ⟨w, o, hw, -⟩
  · exact absurd hrunning hhalted
  · exact .inl ⟨hle, ht⟩
  · exact .inr (.inl ⟨hlt, hcap, ht⟩)
  · exact .inr (.inr (hruns hw))
  · exact .inr (.inr (hruns hw))

/-! ### The causes (60_exceptions.md rule R151) -/

theorem State.raise_mem_status (s : State) (kind : AccessKind) (ea : Word) :
    (s.raise (.memBound kind ea)).status = kind.faultStatus := by
  cases kind <;> rfl

theorem AccessKind.faultStatus_ne_running (kind : AccessKind) : kind.faultStatus ≠ .running := by
  cases kind <;> exact nofun

theorem AccessKind.faultStatus_ne_completed (kind : AccessKind) : kind.faultStatus ≠ .completed := by
  cases kind <;> exact nofun

theorem AccessKind.faultStatus_ne_fetchFault (kind : AccessKind) : kind.faultStatus ≠ .fetchFault := by
  cases kind <;> exact nofun

theorem AccessKind.faultStatus_injective : Function.Injective AccessKind.faultStatus := by
  intro k l h
  match k, l, h with
  | .load, .load, _ => rfl
  | .store, .store, _ => rfl

section
variable {s t : State} (hrunning : s.status = .running) (h : step s = .next t)
include hrunning h

/-- The latch becomes `Completed` exactly where the pc is past the program. -/
theorem status_eq_completed_iff : t.status = .completed ↔ s.validLength ≤ s.pc.toNat := by
  refine ⟨fun hstatus => ?_, fun hle => ?_⟩
  · rcases step_running_cases hrunning h with ⟨hle, -⟩ | ⟨-, -, rfl⟩ | ⟨w, a, -, -, -, rfl⟩ | ⟨hkept, -⟩
    · exact hle
    · exact nomatch hstatus
    · exact absurd ((s.raise_mem_status _ _).symm.trans hstatus) a.kind.faultStatus_ne_completed
    · exact nomatch hrunning.symm.trans (hkept.symm.trans hstatus)
  · obtain rfl := Host.Outcome.next.inj ((completionAtTheValidLength s hrunning hle).symm.trans h)
    rfl

/-- The latch becomes `FetchFault` exactly where the fetch inside the program passes the capacity. -/
theorem status_eq_fetchFault_iff :
    t.status = .fetchFault ↔ s.pc.toNat < s.validLength ∧ s.imem.length ≤ s.pc.toNat + 3 := by
  refine ⟨fun hstatus => ?_, fun ⟨hlt, hcap⟩ => ?_⟩
  · rcases step_running_cases hrunning h with ⟨-, rfl⟩ | ⟨hlt, hcap, -⟩ | ⟨w, a, -, -, -, rfl⟩ | ⟨hkept, -⟩
    · exact nomatch hstatus
    · exact ⟨hlt, hcap⟩
    · exact absurd ((s.raise_mem_status _ _).symm.trans hstatus) a.kind.faultStatus_ne_fetchFault
    · exact nomatch hrunning.symm.trans (hkept.symm.trans hstatus)
  · obtain rfl := Host.Outcome.next.inj ((fetchBoundViolationHalts s hrunning hlt hcap).symm.trans h)
    rfl

/-- A step that latches a memory fault has run a word of the kind's opcode whose access is rejected, and records the
access's address. -/
theorem access_of_status_eq_faultStatus {kind : AccessKind} (hstatus : t.status = kind.faultStatus) :
    ∃ w, s.runs w ∧ w.extractLsb' 0 7 = kind.opcode ∧ s.accepts (kind.accessOfWord w) = false ∧
      t.faultAddr = s.accessAddr (kind.accessOfWord w) := by
  rcases step_running_cases hrunning h with ⟨-, rfl⟩ | ⟨-, -, rfl⟩ | ⟨w, a, hw, ha, hrej, rfl⟩ | ⟨hkept, -⟩
  · exact absurd hstatus.symm kind.faultStatus_ne_completed
  · exact absurd hstatus.symm kind.faultStatus_ne_fetchFault
  · obtain rfl : a.kind = kind := AccessKind.faultStatus_injective ((s.raise_mem_status _ _).symm.trans hstatus)
    have haddr : (s.raise (.memBound a.kind (s.accessAddr a))).faultAddr = s.accessAddr a := s.raise_mem_faultAddr _ _
    exact ⟨w, hw, opcode_of_accessOf ha, eq_accessOfWord_of_accessOf ha ▸ hrej, by
      rw [haddr, ← eq_accessOfWord_of_accessOf ha]⟩
  · exact absurd (hstatus.symm.trans (hkept.trans hrunning)) kind.faultStatus_ne_running

/-- The latch becomes a kind's fault exactly where a word of its opcode runs and its access is rejected. -/
theorem status_eq_faultStatus_iff (kind : AccessKind) :
    t.status = kind.faultStatus ↔
      ∃ w, s.runs w ∧ w.extractLsb' 0 7 = kind.opcode ∧ s.accepts (kind.accessOfWord w) = false := by
  refine ⟨fun hstatus => ?_, fun ⟨w, hw, hop, hrej⟩ => ?_⟩
  · obtain ⟨w, hw, hop, hrej, -⟩ := access_of_status_eq_faultStatus hrunning h hstatus
    exact ⟨w, hw, hop, hrej⟩
  · have hexec := execDecoded_of_rejected (accessOf_decode hop) hrej
    obtain rfl := Host.Outcome.next.inj (((step_eq_execDecoded hw).trans hexec).symm.trans h)
    exact s.raise_mem_status kind _

/-- The recorded address of a memory fault is the effective address of the word that ran. -/
theorem faultAddr_of_status_eq_faultStatus {kind : AccessKind} {w : Word} (hw : s.runs w)
    (hstatus : t.status = kind.faultStatus) :
    t.faultAddr = s.reg (w.extractLsb' 15 5) + kind.immediate w := by
  obtain ⟨v, hv, -, -, haddr⟩ := access_of_status_eq_faultStatus hrunning h hstatus
  rw [haddr, State.runs_unique hv hw]
  rfl

end

/-! ### The truthful latch (60_exceptions.md rule R151) -/

/-- A running latch claims nothing. -/
theorem State.latchTruthful_of_running {s : State} (h : s.status = .running) : s.latchTruthful := by
  simp only [State.latchTruthful, h]

/-- An address at which an access is rejected is one at which no word access is in bounds. -/
theorem inBounds_word_of_rejected {a : Word} {width : Width} (h : inBounds a width = false) :
    inBounds a .word = false := by
  cases width with
  | word => exact h
  | byte => exact Bool.eq_false_iff.mpr fun hw => Bool.eq_false_iff.mp h (inBounds_byte_of_word hw)

/-- A violation of a rejected access is recorded truthfully. -/
theorem State.latchTruthful_raise_mem {s : State} (kind : AccessKind) {ea : Word} {width : Width}
    (h : inBounds ea width = false) : (s.raise (.memBound kind ea)).latchTruthful := by
  cases kind <;> exact inBounds_word_of_rejected h

/-- A step of a halted core answers the same state. -/
theorem eq_of_step_of_halted {s t : State} (hhalted : s.status ≠ .running) (h : step s = .next t) : t = s :=
  Host.Outcome.next.inj (h.symm.trans (haltedStepChangesNothing s hhalted))

/-! ### The words of another width (43_loads_stores.md section 4) -/

/-- An access of another width is a no-operation in range, and halts the run out of it. -/
theorem State.otherWidth_spec (s : State) (kind : AccessKind) (ea : Word) :
    if 0 ≤ ea.toInt ∧ ea.toInt < 4096 then IsNoOperation s (s.otherWidth kind ea)
    else HaltsWith s (s.otherWidth kind ea) kind.faultStatus ea := by
  split
  next hin =>
    rw [s.otherWidth_of_inRange kind ((inRange_iff ea).mpr hin)]
    exact s.isNoOperation_noOperation
  next hout =>
    rw [s.otherWidth_of_not_inRange kind (Bool.eq_false_iff.mpr fun h => hout ((inRange_iff ea).mp h))]
    exact s.raise_haltsWith kind ea

/-! ### The obligations -/

/-- Settles O30: the word decodes to the access of another width, whose two outcomes are the statement's. -/
theorem otherWidthWords : Obligations.OtherWidthWords := by
  unfold Obligations.OtherWidthWords
  intro s w hw h0 h2
  refine ⟨fun hop => ⟨_, ?_, s.otherWidth_spec .load _⟩, fun hop => ⟨_, ?_, s.otherWidth_spec .store _⟩⟩
  · exact step_of_decode_other hw (decode_of_selects (d := .other (.otherLoad _ _)) ⟨hop, h0, h2, rfl, rfl⟩)
  · exact step_of_decode_other hw (decode_of_selects (d := .other (.otherStore _ _)) ⟨hop, h0, h2, rfl, rfl⟩)

/-- Settles O43: each cause by its own `iff`; the load's and the store's are one lemma over the kind of access. -/
theorem haltCauses : Obligations.HaltCauses := by
  unfold Obligations.HaltCauses
  intro s t hrunning h
  have hmem (kind : AccessKind) := status_eq_faultStatus_iff hrunning h kind
  simp only [accepts_accessOfWord_eq_false_iff] at hmem
  exact ⟨status_eq_completed_iff hrunning h, status_eq_fetchFault_iff hrunning h, hmem .load, hmem .store,
    fun _ hw => faultAddr_of_status_eq_faultStatus hrunning h (kind := .load) hw,
    fun _ hw => faultAddr_of_status_eq_faultStatus hrunning h (kind := .store) hw⟩

/-- Settles O44: a step that leaves the latch does not end the run, and completing or raising changes the latch and, for
a memory fault, the recorded address alone. -/
theorem haltIsPrecise : Obligations.HaltIsPrecise := by
  unfold Obligations.HaltIsPrecise
  intro s t hrunning h hended
  rcases step_running_cases hrunning h with ⟨-, rfl⟩ | ⟨-, -, rfl⟩ | ⟨w, a, -, -, -, rfl⟩ | ⟨hkept, -⟩
  · exact ⟨s.complete_reg, fun _ => rfl, rfl, rfl, ⟨rfl, rfl⟩, fun _ _ => rfl⟩
  · exact ⟨s.raise_regsKept _, s.raise_memKept _, rfl, rfl, ⟨rfl, rfl⟩, fun _ _ => rfl⟩
  · obtain ⟨hstatus, -, hpc, hnoop, hregs, hmem, hlaunch⟩ := s.raise_haltsWith a.kind (s.accessAddr a)
    refine ⟨hregs, hmem, hpc, hnoop, hlaunch, fun hload hstore => ?_⟩
    cases hkind : a.kind with
    | load => exact absurd (hstatus.trans (congrArg _ hkind)) hload
    | store => exact absurd (hstatus.trans (congrArg _ hkind)) hstore
  · exact absurd (hkept.trans hrunning) hended

/-- Settles O49: a halted core keeps its latch, and a running core's step writes the latch only under the condition that
the latch then claims. -/
theorem stepKeepsTheLatchTruthful : Obligations.StepKeepsTheLatchTruthful := by
  unfold Obligations.StepKeepsTheLatchTruthful
  intro s t htruthful h
  by_cases hrunning : s.status = .running
  · rcases step_running_cases hrunning h with ⟨hle, rfl⟩ | ⟨hlt, hcap, rfl⟩ | ⟨w, a, -, -, hrej, rfl⟩ | ⟨hkept, -⟩
    · exact hle
    · exact ⟨hlt, hcap⟩
    · exact State.latchTruthful_raise_mem a.kind hrej
    · exact State.latchTruthful_of_running (hkept.trans hrunning)
  · exact eq_of_step_of_halted hrunning h ▸ htruthful

end Sys2Proof.Machine
end

section
/-! PROOF. What every step and every run keeps: data memory but for stores (10_state.md section 3, 20_memory.md sections
2 and 7), the even pc (10_state.md section 2), register slot 0 (section 1), the launch inputs (20_memory.md section 8),
the reset values (10_state.md section 7), and the run (40_cycle_and_alu_control.md section 6). The forms a step's next
state takes stand first. -/

namespace Sys2Proof.Machine

/-! ### The forms of a step's next state -/

/-- A step leaves the state, completes the run, raises a cause, is a no-operation, writes a register or replaces the
data memory; the last two are a well-formed instruction's, which goes on at its own next pc. -/
theorem step_forms {s t : State} (h : step s = .next t) :
    t = s ∨ t = s.complete ∨ (∃ c, t = s.raise c) ∨ t = s.noOperation ∨
    (∃ i rd v, wellFormed i = true ∧ t = (s.setReg rd v).retire (s.nextPcOf i) false) ∨
    ∃ i m, wellFormed i = true ∧ t = State.retire { s with mem := m } (s.nextPcOf i) false := by
  rcases step_cases h with ⟨-, ht⟩ | ⟨-, -, ht⟩ | ⟨-, -, -, ht⟩ | ⟨w, i, -, hd, hexec⟩ | ⟨w, o, -, -, hexec⟩
  · exact .inl ht
  · exact .inr (.inl ht)
  · exact .inr (.inr (.inl ⟨_, ht⟩))
  · have hwf : wellFormed i = true := decodedIsWellFormed w i hd
    rcases exec_cases hexec with ⟨rd, v, -, -, ht⟩ | ⟨m, -, ht⟩ | ⟨kind, ea, ht⟩
    · exact .inr (.inr (.inr (.inr (.inl ⟨i, rd, v, hwf, ht⟩))))
    · exact .inr (.inr (.inr (.inr (.inr ⟨i, m, hwf, ht⟩))))
    · exact .inr (.inr (.inl ⟨_, ht⟩))
  · rcases execOther_cases hexec with ht | ⟨kind, ea, ht⟩
    · exact .inr (.inr (.inr (.inl ht)))
    · exact .inr (.inr (.inl ⟨_, ht⟩))

/-! ### Data memory (10_state.md rule R16, 20_memory.md rule R32) -/

/-- Data memory changes in an instruction only by an accepted SB or SW. -/
theorem exec_mem_cases {i : Instr} {s t : State} (h : exec i s = .next t) :
    t.mem = s.mem ∨
    (∃ rs2 rs1 imm, i = .sb rs2 rs1 imm ∧ s.mem.writeByte (s.effAddr rs1 imm) (s.reg rs2) = some t.mem) ∨
    ∃ rs2 rs1 imm, i = .sw rs2 rs1 imm ∧ s.mem.writeWord (s.effAddr rs1 imm) (s.reg rs2) = some t.mem := by
  cases i with
  | sb rs2 rs1 imm =>
    obtain rfl := Host.Outcome.next.inj h
    rcases s.finishStore_cases (s.effAddr rs1 imm) (s.mem.writeByte (s.effAddr rs1 imm) (s.reg rs2)) with
      ⟨m, hw, ht⟩ | ⟨-, ht⟩
    · exact .inr (.inl ⟨rs2, rs1, imm, rfl, by rw [ht]; exact hw⟩)
    · exact .inl (by rw [ht, State.raise_mem])
  | sw rs2 rs1 imm =>
    obtain rfl := Host.Outcome.next.inj h
    rcases s.finishStore_cases (s.effAddr rs1 imm) (s.mem.writeWord (s.effAddr rs1 imm) (s.reg rs2)) with
      ⟨m, hw, ht⟩ | ⟨-, ht⟩
    · exact .inr (.inr ⟨rs2, rs1, imm, rfl, by rw [ht]; exact hw⟩)
    · exact .inl (by rw [ht, State.raise_mem])
  | beq => exact .inl (Host.Outcome.next.inj h ▸ rfl)
  | _ =>
    rcases exec_cases h with ⟨rd, v, -, -, rfl⟩ | ⟨m, hdest, -⟩ | ⟨kind, ea, rfl⟩
    · exact .inl (by rw [State.retire_mem, State.setReg_mem])
    · exact nomatch hdest
    · exact .inl (s.raise_mem _)

/-- Data memory changes in a step only by an accepted SB or SW. -/
theorem step_mem_cases {s t : State} (h : step s = .next t) :
    t.mem = s.mem ∨ ∃ w rs2 rs1 imm, s.runs w ∧
      ((decode w = .instr (.sb rs2 rs1 imm) ∧ s.mem.writeByte (s.effAddr rs1 imm) (s.reg rs2) = some t.mem) ∨
       (decode w = .instr (.sw rs2 rs1 imm) ∧ s.mem.writeWord (s.effAddr rs1 imm) (s.reg rs2) = some t.mem)) := by
  rcases step_cases h with ⟨-, rfl⟩ | ⟨-, -, rfl⟩ | ⟨-, -, -, rfl⟩ | ⟨w, i, hw, hd, hexec⟩ | ⟨w, o, -, -, hexec⟩
  · exact .inl rfl
  · exact .inl rfl
  · exact .inl rfl
  · rcases exec_mem_cases hexec with hmem | ⟨rs2, rs1, imm, rfl, hwrite⟩ | ⟨rs2, rs1, imm, rfl, hwrite⟩
    · exact .inl hmem
    · exact .inr ⟨w, rs2, rs1, imm, hw, .inl ⟨hd, hwrite⟩⟩
    · exact .inr ⟨w, rs2, rs1, imm, hw, .inr ⟨hd, hwrite⟩⟩
  · rcases execOther_cases hexec with rfl | ⟨kind, ea, rfl⟩
    · exact .inl rfl
    · exact .inl (s.raise_mem _)

/-- An accepted word store keeps the canonical form. -/
theorem Memory.wf_of_writeWord {m m' : Memory} {a v : Word} (hm : m.wf) (h : m.writeWord a v = some m') : m'.wf := by
  obtain ⟨hb, -⟩ := Memory.writeWord_eq_some h
  obtain ⟨m'', hw, hwf, -⟩ := Memory.writeWord_of_inBounds (m := m) v hb
  exact Option.some.inj (hw.symm.trans h) ▸ hwf hm

/-! ### Two cores that differ in data memory alone (10_state.md rule R16) -/

/-- A step that writes a register and goes on does not meet the data memory. -/
theorem State.retire_setReg_withMem (s : State) (m : Memory) (r : RegIdx) (v p : Word) (b : Bool) :
    (State.setReg { s with mem := m } r v).retire p b = { (s.setReg r v).retire p b with mem := m } := by
  unfold State.setReg
  split <;> rfl

/-- Raising a cause and the data memory do not meet. -/
theorem State.raise_withMem (s : State) (m : Memory) (c : Cause) :
    State.raise { s with mem := m } c = { s.raise c with mem := m } := by
  rcases c with _ | ⟨_ | _, _⟩ <;> rfl

/-- An instruction that is no load answers states that differ in data memory alone. -/
theorem exec_withMem {i : Instr} (hload : isLoad i = false) (s : State) (m : Memory) :
    ∃ t m', exec i s = .next t ∧ exec i { s with mem := m } = .next { t with mem := m' } := by
  cases i with
  | lb | lw => exact nomatch hload
  | lui | jal | add | xor | ori | srai =>
    exact ⟨_, m, rfl, congrArg Host.Outcome.next (s.retire_setReg_withMem m _ _ _ _)⟩
  | beq => exact ⟨_, m, rfl, rfl⟩
  | sb rs2 rs1 imm =>
    cases hb : inBounds (s.effAddr rs1 imm) .byte with
    | true =>
      obtain ⟨m₁, hw₁, -⟩ := Memory.writeByte_of_inBounds (m := s.mem) (s.reg rs2) hb
      obtain ⟨m₂, hw₂, -⟩ := Memory.writeByte_of_inBounds (m := m) (s.reg rs2) hb
      exact ⟨_, m₂, exec_sb_of_writeByte hw₁, exec_sb_of_writeByte (s := { s with mem := m }) hw₂⟩
    | false => exact ⟨_, m, exec_sb_of_rejected hb, exec_sb_of_rejected (s := { s with mem := m }) hb⟩
  | sw rs2 rs1 imm =>
    cases hb : inBounds (s.effAddr rs1 imm) .word with
    | true =>
      obtain ⟨m₁, hw₁, -⟩ := Memory.writeWord_of_inBounds (m := s.mem) (s.reg rs2) hb
      obtain ⟨m₂, hw₂, -⟩ := Memory.writeWord_of_inBounds (m := m) (s.reg rs2) hb
      exact ⟨_, m₂, exec_sw_of_writeWord hw₁, exec_sw_of_writeWord (s := { s with mem := m }) hw₂⟩
    | false => exact ⟨_, m, exec_sw_of_rejected hb, exec_sw_of_rejected (s := { s with mem := m }) hb⟩

/-- A word that is none of the eleven instructions answers states that differ in data memory alone: its range test does
not read the memory. -/
theorem execOther_withMem (o : OtherWord) (s : State) (m : Memory) :
    ∃ t, execOther o s = .next t ∧ execOther o { s with mem := m } = .next { t with mem := m } := by
  have hwidth (kind : AccessKind) (ea : Word) :
      State.otherWidth { s with mem := m } kind ea = { s.otherWidth kind ea with mem := m } := by
    cases hin : inRange ea with
    | true => rw [State.otherWidth_of_inRange _ _ hin, State.otherWidth_of_inRange _ _ hin]; rfl
    | false =>
      rw [State.otherWidth_of_not_inRange _ _ hin, State.otherWidth_of_not_inRange _ _ hin, State.raise_withMem]
  cases o with
  | unknownOpcode | unmatchedAlu | otherBranch => exact ⟨_, rfl, rfl⟩
  | otherLoad | otherStore => exact ⟨_, rfl, congrArg Host.Outcome.next (hwidth _ _)⟩

/-- A step that runs no load answers states that differ in data memory alone. -/
theorem step_withMem {s : State} (hload : ∀ w i, s.runs w → decode w = .instr i → isLoad i = false) (m : Memory) :
    ∃ t m', step s = .next t ∧ step { s with mem := m } = .next { t with mem := m' } := by
  rcases s.classes_before_exec with hhalted | ⟨hrunning, hge⟩ | ⟨hrunning, hlt, hcap⟩ | ⟨w, hw⟩
  · exact ⟨_, m, haltedStepChangesNothing s hhalted, haltedStepChangesNothing { s with mem := m } hhalted⟩
  · exact ⟨_, m, completionAtTheValidLength s hrunning hge,
      completionAtTheValidLength { s with mem := m } hrunning hge⟩
  · exact ⟨_, m, fetchBoundViolationHalts s hrunning hlt hcap,
      fetchBoundViolationHalts { s with mem := m } hrunning hlt hcap⟩
  · have hw' : State.runs { s with mem := m } w := hw
    cases hd : decode w with
    | instr i =>
      rw [step_of_decode_instr hw hd, step_of_decode_instr hw' hd]
      exact exec_withMem (hload w i hw hd) s m
    | other o =>
      rw [step_of_decode_other hw hd, step_of_decode_other hw' hd]
      obtain ⟨t, ht, ht'⟩ := execOther_withMem o s m
      exact ⟨t, m, ht, ht'⟩

/-! ### The even pc (10_state.md rule R14) -/

/-- The sum of even words is even. -/
theorem getLsbD_zero_add {x y : Word} (hx : x.getLsbD 0 = false) (hy : y.getLsbD 0 = false) :
    (x + y).getLsbD 0 = false := by
  rw [BitVec.getLsbD_add (by decide), hx, hy, BitVec.carry_zero]
  rfl

/-- A well-formed instruction goes on at an even pc: 4, a jump offset and a branch offset are even. -/
theorem State.nextPcOf_even {s : State} {i : Instr} (hwf : wellFormed i = true) (heven : s.pcEven) :
    (s.nextPcOf i).getLsbD 0 = false := by
  have hnext : s.nextPc.getLsbD 0 = false := getLsbD_zero_add heven rfl
  cases i with
  | jal rd imm => exact getLsbD_zero_add heven (getLsbD_zero_of_immFitsJ hwf)
  | beq rs1 rs2 imm =>
    rw [State.nextPcOf_beq]
    split
    · exact getLsbD_zero_add heven (getLsbD_zero_of_immFitsB hwf)
    · exact hnext
  | _ => exact hnext

/-! ### Reset and the launch (10_state.md rule R25, 70_reset_and_hazards.md rule R172) -/

/-- After a launch every register reads zero. -/
theorem State.launch_reg (imem : List Byte) (n : Nat) (r : RegIdx) : (State.launch imem n).reg r = 0 := by
  unfold State.reg
  split
  · rfl
  · exact Vector.getElem_replicate _

/-- After a launch register slot 0 is zero. -/
theorem State.launch_slotZero (imem : List Byte) (n : Nat) : (State.launch imem n).slotZero :=
  Vector.getElem_replicate _

/-- A launch within the driver's premises meets every invariant. -/
theorem State.launch_invariants {imem : List Byte} {n : Nat} (hn : n ≤ imem.length) (hcap : imem.length ≤ 4294967296) :
    (State.launch imem n).mem.wf ∧ (State.launch imem n).pcEven ∧ (State.launch imem n).latchTruthful ∧
      (State.launch imem n).slotZero ∧ (State.launch imem n).launchOk :=
  ⟨State.reset_mem_wf, BitVec.getLsbD_zero, State.latchTruthful_of_running rfl, State.launch_slotZero imem n, hn, hcap⟩

/-! ### The run (40_cycle_and_alu_control.md rules R94 to R96) -/

/-- A property that every step keeps is kept by a run of any length. -/
theorem runFuel_keeps {P : State → Prop} (hstep : ∀ s t, P s → step s = .next t → P t) (n : Nat) (s : State)
    (hs : P s) : P (runFuel n s) := by
  induction n generalizing s with
  | zero => exact hs
  | succ n ih =>
    by_cases hrunning : s.status = .running
    · obtain ⟨t, h⟩ := exists_step_eq_next s
      rw [runFuel_succ hrunning h]
      exact ih t (hstep s t hs h)
    · rwa [runFuel_of_halted hrunning]

/-- A run of `n + k` steps is a run of `k` steps after one of `n`. -/
theorem runFuel_add (n k : Nat) (s : State) : runFuel (n + k) s = runFuel k (runFuel n s) := by
  induction n generalizing s with
  | zero => rw [Nat.zero_add, runFuel]
  | succ n ih =>
    by_cases hrunning : s.status = .running
    · obtain ⟨t, h⟩ := exists_step_eq_next s
      rw [Nat.succ_add, runFuel_succ hrunning h, runFuel_succ hrunning h, ih]
    · rw [runFuel_of_halted hrunning, runFuel_of_halted hrunning, runFuel_of_halted hrunning]

/-! ### The obligations -/

/-- Settles O41: a step that changes data memory stores by SB or SW, and the store's memory differs only in the bytes
stored. -/
theorem onlyStoresChangeDataMemory : Obligations.OnlyStoresChangeDataMemory := by
  unfold Obligations.OnlyStoresChangeDataMemory
  intro s t a h hchanged
  rcases step_mem_cases h with hmem | ⟨w, rs2, rs1, imm, hw, ⟨hd, hwrite⟩ | ⟨hd, hwrite⟩⟩
  · exact absurd (congrArg (Memory.read · a) hmem) hchanged
  · obtain ⟨hb, -, hread⟩ := Memory.writeByte_eq_some hwrite
    have ha : a = (s.effAddr rs1 imm).toNat := by_contra fun hne => hchanged ((hread a).trans (if_neg hne))
    exact ⟨w, rs2, rs1, imm, hw, .inl ⟨hd, hb, ha, (hread a).trans (if_pos ha)⟩⟩
  · obtain ⟨hb, hread⟩ := Memory.writeWord_eq_some hwrite
    have ha : (s.effAddr rs1 imm).toNat ≤ a ∧ a < (s.effAddr rs1 imm).toNat + 4 :=
      by_contra fun hne => hchanged ((hread a).trans (if_neg hne))
    exact ⟨w, rs2, rs1, imm, hw, .inr ⟨hd, hb, a - (s.effAddr rs1 imm).toNat, by omega, by omega,
      (hread a).trans (if_pos ha)⟩⟩

/-- Settles O45: no form of a step's next state touches the launch inputs. -/
theorem stepKeepsTheLaunchInputs : Obligations.StepKeepsTheLaunchInputs := by
  unfold Obligations.StepKeepsTheLaunchInputs
  intro s t h
  rcases step_forms h with rfl | rfl | ⟨c, rfl⟩ | rfl | ⟨i, rd, v, -, rfl⟩ | ⟨i, m, -, rfl⟩
  · exact ⟨rfl, rfl⟩
  · exact ⟨rfl, rfl⟩
  · exact ⟨s.raise_imem c, s.raise_validLength c⟩
  · exact ⟨rfl, rfl⟩
  · obtain ⟨-, -, -, hlaunch⟩ := s.retire_setReg_completes rd v (s.nextPcOf i) false
    exact hlaunch
  · exact ⟨rfl, rfl⟩

/-- Settles O46: the two next states differ in data memory alone. -/
theorem dataMemoryIsSeenOnlyByLoads : Obligations.DataMemoryIsSeenOnlyByLoads := by
  unfold Obligations.DataMemoryIsSeenOnlyByLoads
  intro s m hload
  obtain ⟨t, m', ht, hu⟩ := step_withMem hload m
  exact ⟨t, _, ht, hu, fun _ => rfl, rfl, rfl, ⟨rfl, rfl⟩, rfl, rfl⟩

/-- Settles O47: an accepted store keeps the canonical form, and no other step changes data memory. -/
theorem stepKeepsTheMemoryForm : Obligations.StepKeepsTheMemoryForm := by
  unfold Obligations.StepKeepsTheMemoryForm
  intro s t hwf h
  rcases step_mem_cases h with hmem | ⟨w, rs2, rs1, imm, -, ⟨-, hwrite⟩ | ⟨-, hwrite⟩⟩
  · exact hmem ▸ hwf
  · obtain ⟨-, hkeeps, -⟩ := Memory.writeByte_eq_some hwrite
    exact hkeeps hwf
  · exact Memory.wf_of_writeWord hwf hwrite

/-- Settles O48: the pc is kept, or it is the next pc of a well-formed instruction or the default one. -/
theorem stepKeepsThePcEven : Obligations.StepKeepsThePcEven := by
  unfold Obligations.StepKeepsThePcEven
  intro s t heven h
  rcases step_forms h with rfl | rfl | ⟨c, rfl⟩ | rfl | ⟨i, rd, v, hwf, rfl⟩ | ⟨i, m, hwf, rfl⟩
  · exact heven
  · exact heven
  · rwa [State.pcEven, State.raise_pc]
  · exact getLsbD_zero_add heven rfl
  · exact State.nextPcOf_even hwf heven
  · exact State.nextPcOf_even hwf heven

/-- Settles O50: a register write suppresses slot 0, and no other form of a next state touches the registers. -/
theorem stepKeepsSlotZero : Obligations.StepKeepsSlotZero := by
  unfold Obligations.StepKeepsSlotZero
  intro s t hzero h
  rcases step_forms h with rfl | rfl | ⟨c, rfl⟩ | rfl | ⟨i, rd, v, -, rfl⟩ | ⟨i, m, -, rfl⟩
  · exact hzero
  · exact hzero
  · simpa only [State.slotZero, State.raise_regs] using hzero
  · exact hzero
  · exact (s.setReg_slot0 rd v).trans hzero
  · exact hzero

/-- Settles O51: reset is the launch of the empty buffer, and every launch within the premises meets the invariants. -/
theorem resetMeetsTheInvariants : Obligations.ResetMeetsTheInvariants := by
  unfold Obligations.ResetMeetsTheInvariants
  exact ⟨State.launch_invariants (imem := []) le_rfl (Nat.zero_le _), fun _ _ => State.launch_invariants⟩

/-- Settles O52: reset is the launch of the empty buffer, whose registers read zero; the empty memory reads zero. -/
theorem resetValues : Obligations.ResetValues := by
  unfold Obligations.ResetValues
  exact ⟨State.launch_reg [] 0, Memory.read_nil, rfl, rfl, rfl⟩

/-- Settles O53: the reset input is a launch of the state's own buffer. -/
theorem resetInputRestoresEveryState : Obligations.ResetInputRestoresEveryState := by
  unfold Obligations.ResetInputRestoresEveryState
  exact fun s => ⟨State.launch_reg s.imem s.validLength, Memory.read_nil, rfl, rfl, rfl, rfl, rfl⟩

/-- Settles O56: while the core runs, the loop and the core make the same step; from a halted state the loop stops and
the core's steps answer the same state. -/
theorem runLoopIsIteratedSteps : Obligations.RunLoopIsIteratedSteps := by
  unfold Obligations.RunLoopIsIteratedSteps
  intro n
  induction n with
  | zero => exact fun _ => rfl
  | succ n ih =>
    intro s
    obtain ⟨t, h⟩ := exists_step_eq_next s
    rw [core_run_succ h, ih t]
    by_cases hrunning : s.status = .running
    · rw [runFuel_succ hrunning h]
    · obtain rfl := eq_of_step_of_halted hrunning h
      rw [runFuel_of_halted hrunning, runFuel_of_halted hrunning]

/-- Settles O54: by O56 the steps are the run loop's, which after `n` of them stands at a halted state. -/
theorem endedRunStaysEnded : Obligations.EndedRunStaysEnded := by
  unfold Obligations.EndedRunStaysEnded
  intro n k s t h hended
  obtain rfl : runFuel n s = t := Host.Outcome.next.inj ((runLoopIsIteratedSteps n s).symm.trans h)
  rw [runLoopIsIteratedSteps, runFuel_add, runFuel_of_halted hended]

/-- Settles O55: each invariant is kept by every step, hence by the run; the launch premises are about the launch
inputs, which the run keeps. -/
theorem runKeepsTheInvariants : Obligations.RunKeepsTheInvariants := by
  unfold Obligations.RunKeepsTheInvariants
  intro n s hmem hpc hlatch hslot hlaunchOk
  have hlaunch : LaunchKept s (runFuel n s) := by
    refine runFuel_keeps (fun t u ⟨himem, hlength⟩ h => ?_) n s ⟨rfl, rfl⟩
    obtain ⟨himem', hlength'⟩ := stepKeepsTheLaunchInputs t u h
    exact ⟨himem'.trans himem, hlength'.trans hlength⟩
  refine ⟨runFuel_keeps (P := fun t => t.mem.wf) stepKeepsTheMemoryForm n s hmem,
    runFuel_keeps stepKeepsThePcEven n s hpc, runFuel_keeps stepKeepsTheLatchTruthful n s hlatch,
    runFuel_keeps stepKeepsSlotZero n s hslot, ?_, hlaunch⟩
  obtain ⟨himem, hlength⟩ := hlaunch
  rwa [State.launchOk, himem, hlength]

end Sys2Proof.Machine
end
